-- ==== Sys2Proof/Word.lean ====
section
/-!
DEFINITION. The two bit-vector types of the hardware.
A register, an address and the program counter have 64 bits (00_scope.md R107); an addressable unit has 8 (log 24).
The spec keeps the name "word" for 2 bytes, so the 64-bit type is called `Qword` here (00_scope.md R108).
-/

namespace Sys2Proof

/-- One addressable unit of memory, one byte of an instruction, a register code: 8 bits. -/
abbrev Byte := BitVec 8

/-- A register's value or an address: 64 bits (00_scope.md R107, parameter XLEN). -/
abbrev Qword := BitVec 64

end Sys2Proof
end

