-- ==== Sys2Proof/Config.lean ====
section
/-!
DEFINITION. What is fixed for every session of this hardware (00_scope.md R107).
The parameters that vary between sessions (the capacity and STRICT_REGS) are fields of State (log 20).
The spec leaves no value open during a run (40_cycle.md R185), so there is no opaque constant here.
-/

namespace Sys2Proof.Config

/-- Bytes added to the image length when the host gives no capacity: C = L + 20 (20_memory.md R153). -/
def defaultHeadroom : Nat := 20

/-- A capacity and an image length are below this bound (00_scope.md R107, 93_implementation_defined.md U15, log 11). -/
def addressLimit : Nat := 2 ^ 64

/-- What a byte of memory that nothing has written reads as: 0 (10_state.md R134; the spec's decision D5, log 5, unsafe). -/
def unlistedByte : Byte := 0

/-- The longest instruction, `SaveQIToI`, in bytes (30_encoding.md R159, 42_save.md R216). -/
def maxInstrBytes : Nat := 17

end Sys2Proof.Config
end

