-- ==== Sys2Proof/Syntax.lean ====
section
/-!
DEFINITION. The instructions as syntax: widths, operands, the closed enumeration of 34 opcodes (30_encoding.md R155 to R164).
Every field of `Instr` has exactly the bits the encoding gives it, so that an immediate cannot fail to fit its width.
-/

namespace Sys2Proof

/-- The four widths of an operation or of an immediate (00_scope.md R108): 1, 2, 4 and 8 bytes. -/
inductive Width where
  | byte | word | dword | qword
  deriving DecidableEq, Repr

/-- The kinds of operand an opcode's shape lists (30_encoding.md R156, R157). -/
inductive OperandKind where
  | reg
  | imm (w : Width)
  deriving DecidableEq, Repr

/-- An operand: a register code, any of 256 values (R156, R168), or an immediate of a width (R157).
The value of an immediate is held zero-extended in 64 bits (log 25). -/
inductive Operand where
  | reg (code : Byte)
  | imm (w : Width) (value : Qword)
  deriving DecidableEq, Repr

/-- The families of the opcode catalogue (R164). -/
inductive Family where
  | move | save | load | incDec
  deriving DecidableEq, Repr

/-- The eleven formats (R160), named as the spec names them. -/
inductive Format where
  | n | rr | i1r | i2r | i4r | i8r | ri8 | i1i8 | i2i8 | i4i8 | i8i8
  deriving DecidableEq, Repr

/-- The closed enumeration of opcodes by name (R164). -/
inductive Mnemonic where
  | movBRToR | movWRToR | movDRToR | movR
  | movBIToR | movWIToR | movDIToR | movI
  | saveBRToR | saveWRToR | saveDRToR | saveQRToR
  | saveBIToR | saveWIToR | saveDIToR | saveQIToR
  | saveBRToI | saveWRToI | saveDRToI | saveQRToI
  | saveBIToI | saveWIToI | saveDIToI | saveQIToI
  | loadBRToR | loadWRToR | loadDRToR | loadQRToR
  | loadBIToR | loadWIToR | loadDIToR | loadQIToR
  | inc | dec
  deriving DecidableEq, Repr

/-- One constructor per row of the opcode table. `ss` is a source register code, `dd` a destination register code,
`aa` an address register code, `imm` a data immediate of the operation's width (R162), `addr` an address immediate,
always 8 bytes (R163). Operands stand in the order of the encoding, source first (R158). -/
inductive Instr where
  | movBRToR (ss : Byte) (dd : Byte)
  | movWRToR (ss : Byte) (dd : Byte)
  | movDRToR (ss : Byte) (dd : Byte)
  | movR (ss : Byte) (dd : Byte)
  | movBIToR (imm : BitVec 8) (dd : Byte)
  | movWIToR (imm : BitVec 16) (dd : Byte)
  | movDIToR (imm : BitVec 32) (dd : Byte)
  | movI (imm : Qword) (dd : Byte)
  | saveBRToR (ss : Byte) (aa : Byte)
  | saveWRToR (ss : Byte) (aa : Byte)
  | saveDRToR (ss : Byte) (aa : Byte)
  | saveQRToR (ss : Byte) (aa : Byte)
  | saveBIToR (imm : BitVec 8) (aa : Byte)
  | saveWIToR (imm : BitVec 16) (aa : Byte)
  | saveDIToR (imm : BitVec 32) (aa : Byte)
  | saveQIToR (imm : Qword) (aa : Byte)
  | saveBRToI (ss : Byte) (addr : Qword)
  | saveWRToI (ss : Byte) (addr : Qword)
  | saveDRToI (ss : Byte) (addr : Qword)
  | saveQRToI (ss : Byte) (addr : Qword)
  | saveBIToI (imm : BitVec 8) (addr : Qword)
  | saveWIToI (imm : BitVec 16) (addr : Qword)
  | saveDIToI (imm : BitVec 32) (addr : Qword)
  | saveQIToI (imm : Qword) (addr : Qword)
  | loadBRToR (aa : Byte) (dd : Byte)
  | loadWRToR (aa : Byte) (dd : Byte)
  | loadDRToR (aa : Byte) (dd : Byte)
  | loadQRToR (aa : Byte) (dd : Byte)
  | loadBIToR (addr : Qword) (dd : Byte)
  | loadWIToR (addr : Qword) (dd : Byte)
  | loadDIToR (addr : Qword) (dd : Byte)
  | loadQIToR (addr : Qword) (dd : Byte)
  | inc
  | dec
  deriving DecidableEq, Repr

/-- Which opcode an instruction has. -/
def Instr.mnemonic : Instr → Mnemonic
  | .movBRToR _ _ => .movBRToR
  | .movWRToR _ _ => .movWRToR
  | .movDRToR _ _ => .movDRToR
  | .movR _ _ => .movR
  | .movBIToR _ _ => .movBIToR
  | .movWIToR _ _ => .movWIToR
  | .movDIToR _ _ => .movDIToR
  | .movI _ _ => .movI
  | .saveBRToR _ _ => .saveBRToR
  | .saveWRToR _ _ => .saveWRToR
  | .saveDRToR _ _ => .saveDRToR
  | .saveQRToR _ _ => .saveQRToR
  | .saveBIToR _ _ => .saveBIToR
  | .saveWIToR _ _ => .saveWIToR
  | .saveDIToR _ _ => .saveDIToR
  | .saveQIToR _ _ => .saveQIToR
  | .saveBRToI _ _ => .saveBRToI
  | .saveWRToI _ _ => .saveWRToI
  | .saveDRToI _ _ => .saveDRToI
  | .saveQRToI _ _ => .saveQRToI
  | .saveBIToI _ _ => .saveBIToI
  | .saveWIToI _ _ => .saveWIToI
  | .saveDIToI _ _ => .saveDIToI
  | .saveQIToI _ _ => .saveQIToI
  | .loadBRToR _ _ => .loadBRToR
  | .loadWRToR _ _ => .loadWRToR
  | .loadDRToR _ _ => .loadDRToR
  | .loadQRToR _ _ => .loadQRToR
  | .loadBIToR _ _ => .loadBIToR
  | .loadWIToR _ _ => .loadWIToR
  | .loadDIToR _ _ => .loadDIToR
  | .loadQIToR _ _ => .loadQIToR
  | .inc => .inc
  | .dec => .dec

/-- The operands of an instruction in the order source, destination (R158). -/
def Instr.operands : Instr → List Operand
  | .movBRToR ss dd => [.reg ss, .reg dd]
  | .movWRToR ss dd => [.reg ss, .reg dd]
  | .movDRToR ss dd => [.reg ss, .reg dd]
  | .movR ss dd => [.reg ss, .reg dd]
  | .movBIToR imm dd => [.imm .byte (imm.setWidth 64), .reg dd]
  | .movWIToR imm dd => [.imm .word (imm.setWidth 64), .reg dd]
  | .movDIToR imm dd => [.imm .dword (imm.setWidth 64), .reg dd]
  | .movI imm dd => [.imm .qword imm, .reg dd]
  | .saveBRToR ss aa => [.reg ss, .reg aa]
  | .saveWRToR ss aa => [.reg ss, .reg aa]
  | .saveDRToR ss aa => [.reg ss, .reg aa]
  | .saveQRToR ss aa => [.reg ss, .reg aa]
  | .saveBIToR imm aa => [.imm .byte (imm.setWidth 64), .reg aa]
  | .saveWIToR imm aa => [.imm .word (imm.setWidth 64), .reg aa]
  | .saveDIToR imm aa => [.imm .dword (imm.setWidth 64), .reg aa]
  | .saveQIToR imm aa => [.imm .qword imm, .reg aa]
  | .saveBRToI ss addr => [.reg ss, .imm .qword addr]
  | .saveWRToI ss addr => [.reg ss, .imm .qword addr]
  | .saveDRToI ss addr => [.reg ss, .imm .qword addr]
  | .saveQRToI ss addr => [.reg ss, .imm .qword addr]
  | .saveBIToI imm addr => [.imm .byte (imm.setWidth 64), .imm .qword addr]
  | .saveWIToI imm addr => [.imm .word (imm.setWidth 64), .imm .qword addr]
  | .saveDIToI imm addr => [.imm .dword (imm.setWidth 64), .imm .qword addr]
  | .saveQIToI imm addr => [.imm .qword imm, .imm .qword addr]
  | .loadBRToR aa dd => [.reg aa, .reg dd]
  | .loadWRToR aa dd => [.reg aa, .reg dd]
  | .loadDRToR aa dd => [.reg aa, .reg dd]
  | .loadQRToR aa dd => [.reg aa, .reg dd]
  | .loadBIToR addr dd => [.imm .qword addr, .reg dd]
  | .loadWIToR addr dd => [.imm .qword addr, .reg dd]
  | .loadDIToR addr dd => [.imm .qword addr, .reg dd]
  | .loadQIToR addr dd => [.imm .qword addr, .reg dd]
  | .inc => []
  | .dec => []

end Sys2Proof
end

