-- ==== Sys2Proof/Machine/Bytes.lean ====
section
/-!
DEFINITION. Bytes, widths, and the low-bytes operations on a 64-bit value (00_scope.md R108).
Byte order is decided here, once, for memory and for immediates alike: little-endian (20_memory.md R140).
-/

namespace Sys2Proof

/-- The number of bytes of a width (00_scope.md R108). -/
def Width.bytes : Width → Nat
  | .byte => 1
  | .word => 2
  | .dword => 4
  | .qword => 8

/-- The number of bits of a width. -/
def Width.bits (w : Width) : Nat := 8 * w.bytes

/-- The number that bytes in memory order stand for: the byte at the lowest address is the least significant
(20_memory.md R138, 30_encoding.md R161). -/
def joinLE : List Byte → Nat
  | [] => 0
  | b :: bs => b.toNat + 256 * joinLE bs

/-- The low `n` bytes of a number, least significant first (20_memory.md R139): byte `k` is bits `8k+7 : 8k`. -/
def splitLE : Nat → Nat → List Byte
  | 0, _ => []
  | n + 1, v => BitVec.ofNat 8 v :: splitLE n (v / 256)

/-- `trunc_n(v)`: the low `n` bytes of `v`, zero-extended to 64 bits (00_scope.md R108, log 25). -/
def trunc (w : Width) (v : Qword) : Qword := (v.setWidth w.bits).setWidth 64

/-- `old[63 : 8n] ++ v[8n-1 : 0]`: the low `n` bytes replaced, the bytes above kept (10_state.md R118). -/
def mergeLow (w : Width) (old v : Qword) : Qword := ((old >>> w.bits) <<< w.bits) ||| trunc w v

end Sys2Proof
end

