-- ==== Sys2Proof/Machine/State.lean ====
section
/-!
DEFINITION. The state of one session (10_state.md R111), its faults and the model's refusals, and the state after reset.
Everything here is plain data.
-/

namespace Sys2Proof.Machine

/-- The 17 registers by name, in the order of their codes 0x00 to 0x10 (10_state.md R112). -/
inductive RegName where
  | r0 | r1 | r2 | r3 | r4 | r5 | r6 | r7 | r8 | r9
  | rcount | flags | stackPointer | stackStart | stackEnd
  | programStartLocation | programCounter
  deriving DecidableEq, Repr

/-- The register file: every register is a 64-bit slot of its own (10_state.md R112, R113). -/
structure Regs where
  r0 : Qword
  r1 : Qword
  r2 : Qword
  r3 : Qword
  r4 : Qword
  r5 : Qword
  r6 : Qword
  r7 : Qword
  r8 : Qword
  r9 : Qword
  rcount : Qword
  flags : Qword
  stackPointer : Qword
  stackStart : Qword
  stackEnd : Qword
  programStartLocation : Qword
  programCounter : Qword
  deriving DecidableEq, Repr

/-- The contents of memory: the bytes that differ from what an unlisted address reads as, addresses strictly rising
(`Memory.wf` in Ops.lean). Which addresses exist is the field `capacity` of State (10_state.md R130). -/
abbrev Memory := List Host.Cell

/-- Where the session is in the run loop's state machine (10_state.md R131). -/
inductive RunState where
  | ready | running | halted | error
  deriving DecidableEq, Repr

/-- The four named faults (60_exceptions.md R231). Raising one is a NEXT state, in Error, with the field `fault` set (R239);
the step function answers `Host.Outcome.fault` only from a session that is in Error already (log 23). -/
inductive Fault where
  /-- Raised at session creation when the image is longer than the capacity (R232). Safe: the spec's own. -/
  | imageTooLarge
  /-- Raised by decoding when the opcode byte is none of the 34 (R233). Safe: the spec's own. -/
  | unknownOpcode
  /-- Raised by an operand fetch, a Save or a Load that does not lie below the capacity for its full width (R234).
  Safe: the spec's own. -/
  | outOfBounds
  /-- Raised by the register file in strict mode when a code names no register (R235). Safe: the spec's own. -/
  | invalidRegisterCode
  deriving DecidableEq, Repr

/-- Why the model has no answer. No instruction of the table is ever refused. -/
inductive Refusal where
  /-- An instruction without a meaning yet; no arm of exec uses it. Safe. -/
  | notModelled (mnemonic : String)
  /-- A step asked of a session in Halted: "no step exists" from it (10_state.md R131, log 19). Safe. -/
  | sessionHalted
  /-- A step asked of a session in Error whose `fault` is None, which no session of the spec is (log 27). Safe. -/
  | errorWithoutFault
  /-- A preset asked of a session that is not Ready, or a run asked of a Running or a Halted one (70_reset_and_hazards.md
  R253, R254, log 29). Safe. -/
  | sessionNotReady
  /-- The inspector used while the core is Running (R255). Safe. -/
  | sessionRunning
  /-- A capacity or an image length of 2^64 or more: not a session (93_implementation_defined.md U15, log 11). Safe. -/
  | notASession
  /-- A preset or an inspection of an address at or above the capacity (R253, R255, log 18). Safe. -/
  | noSuchAddress
  /-- An inspection of a code above 0x10 (R255, log 18). Safe. -/
  | noSuchRegister
  deriving DecidableEq, Repr

/-- The whole state of a session (10_state.md R111), and the two parameters that are constant in it (log 20). -/
structure State where
  /-- The register file (R112). -/
  regs : Regs
  /-- Memory (R130). -/
  mem : Memory
  /-- The run state (R131). -/
  runState : RunState
  /-- The fault latch: none from creation, set once (R132). -/
  fault : Option Fault
  /-- The capacity C in bytes, fixed for the session (20_memory.md R153). -/
  capacity : Nat
  /-- STRICT_REGS, fixed for the session (10_state.md R117). -/
  strictRegs : Bool
  deriving DecidableEq, Repr

/-- What a step, an instruction or a host operation answers. -/
abbrev Result := Host.Outcome State Fault Refusal

/-- All 17 registers 0 (70_reset_and_hazards.md R252 step 3; the spec's decision D4, log 4). -/
def Regs.zero : Regs where
  r0 := 0
  r1 := 0
  r2 := 0
  r3 := 0
  r4 := 0
  r5 := 0
  r6 := 0
  r7 := 0
  r8 := 0
  r9 := 0
  rcount := 0
  flags := 0
  stackPointer := 0
  stackStart := 0
  stackEnd := 0
  programStartLocation := 0
  programCounter := 0

/-- The state right after reset (10_state.md R134). Reset is the creation of a session (70_reset_and_hazards.md R251); this
is the one created from the empty image, with no capacity and no STRICT_REGS given, so that no program is invented
(log 21): C = 0 + 20, `ProgramStartLocation` = `ProgramCounter` = C - 0, nothing in memory, Ready. -/
def State.reset : State where
  regs := { Regs.zero with programStartLocation := 20, programCounter := 20 }
  mem := []
  runState := .ready
  fault := none
  capacity := 20
  strictRegs := false

end Sys2Proof.Machine
end

