-- ==== Sys2Proof/Machine/Ops.lean ====
section
/-!
DEFINITION. The named operations over registers and memory, the program counter, and taking a fault.
-/

namespace Sys2Proof.Machine

/-! ### Registers -/

/-- The register a code names; none for 0x11 to 0xFF (10_state.md R112). -/
def RegName.ofCode (c : Byte) : Option RegName :=
  match c.toNat with
  | 0x00 => some .r0
  | 0x01 => some .r1
  | 0x02 => some .r2
  | 0x03 => some .r3
  | 0x04 => some .r4
  | 0x05 => some .r5
  | 0x06 => some .r6
  | 0x07 => some .r7
  | 0x08 => some .r8
  | 0x09 => some .r9
  | 0x0A => some .rcount
  | 0x0B => some .flags
  | 0x0C => some .stackPointer
  | 0x0D => some .stackStart
  | 0x0E => some .stackEnd
  | 0x0F => some .programStartLocation
  | 0x10 => some .programCounter
  | _ => none

/-- The code of a register (10_state.md R112). -/
def RegName.code : RegName → Byte
  | .r0 => 0x00
  | .r1 => 0x01
  | .r2 => 0x02
  | .r3 => 0x03
  | .r4 => 0x04
  | .r5 => 0x05
  | .r6 => 0x06
  | .r7 => 0x07
  | .r8 => 0x08
  | .r9 => 0x09
  | .rcount => 0x0A
  | .flags => 0x0B
  | .stackPointer => 0x0C
  | .stackStart => 0x0D
  | .stackEnd => 0x0E
  | .programStartLocation => 0x0F
  | .programCounter => 0x10

/-- The value in a register's slot. -/
def Regs.get (r : Regs) : RegName → Qword
  | .r0 => r.r0
  | .r1 => r.r1
  | .r2 => r.r2
  | .r3 => r.r3
  | .r4 => r.r4
  | .r5 => r.r5
  | .r6 => r.r6
  | .r7 => r.r7
  | .r8 => r.r8
  | .r9 => r.r9
  | .rcount => r.rcount
  | .flags => r.flags
  | .stackPointer => r.stackPointer
  | .stackStart => r.stackStart
  | .stackEnd => r.stackEnd
  | .programStartLocation => r.programStartLocation
  | .programCounter => r.programCounter

/-- Overwrites one register's slot, all 64 bits. -/
def Regs.set (r : Regs) (n : RegName) (v : Qword) : Regs :=
  match n with
  | .r0 => { r with r0 := v }
  | .r1 => { r with r1 := v }
  | .r2 => { r with r2 := v }
  | .r3 => { r with r3 := v }
  | .r4 => { r with r4 := v }
  | .r5 => { r with r5 := v }
  | .r6 => { r with r6 := v }
  | .r7 => { r with r7 := v }
  | .r8 => { r with r8 := v }
  | .r9 => { r with r9 := v }
  | .rcount => { r with rcount := v }
  | .flags => { r with flags := v }
  | .stackPointer => { r with stackPointer := v }
  | .stackStart => { r with stackStart := v }
  | .stackEnd => { r with stackEnd := v }
  | .programStartLocation => { r with programStartLocation := v }
  | .programCounter => { r with programCounter := v }

/-- The value of a named register. -/
def State.reg (s : State) (n : RegName) : Qword := s.regs.get n

/-- Overwrites a named register. -/
def State.setReg (s : State) (n : RegName) (v : Qword) : State := { s with regs := s.regs.set n v }

/-- The register file answers for a code: it names a register, or the session is tolerant (10_state.md R117). -/
def State.codeOk (s : State) (c : Byte) : Bool := (RegName.ofCode c).isSome || !s.strictRegs

/-- The value a tolerant read gives: 0 for a code that names no register (10_state.md R115). -/
def State.codeValue (s : State) (c : Byte) : Qword :=
  match RegName.ofCode c with
  | some n => s.reg n
  | none => 0

/-- The effect of a tolerant write: none for a code that names no register (10_state.md R116). -/
def State.setCode (s : State) (c : Byte) (v : Qword) : State :=
  match RegName.ofCode c with
  | some n => s.setReg n v
  | none => s

/-- `RegGet(code)`, written `x[code]` (10_state.md R115). -/
def regGet (s : State) (c : Byte) : Except Fault Qword :=
  if s.codeOk c then .ok (s.codeValue c) else .error .invalidRegisterCode

/-- `RegSet(code, value)`, written `x[code] <- value` (10_state.md R116). -/
def regSet (s : State) (c : Byte) (v : Qword) : Except Fault State :=
  if s.codeOk c then .ok (s.setCode c v) else .error .invalidRegisterCode

/-- `RegMergeLow(code, n, v)`, written `x[code][8n-1:0] <- v`: reads the register, then writes it (10_state.md R118). -/
def regMergeLow (s : State) (c : Byte) (w : Width) (v : Qword) : Except Fault State :=
  match regGet s c with
  | .error f => .error f
  | .ok old => regSet s c (mergeLow w old v)

/-! ### The program counter -/

/-- The program counter, register 0x10 (10_state.md R119). -/
def State.pc (s : State) : Qword := s.reg .programCounter

/-- Advances the program counter over an instruction of `n` bytes, from `pc0` to `pc1` (10_state.md R120, 40_cycle.md R178).
The sum cannot wrap after a successful decode (10_state.md R121). -/
def State.advancePc (s : State) (n : Nat) : State := s.setReg .programCounter (s.pc + BitVec.ofNat 64 n)

/-! ### Memory -/

/-- The canonical form: addresses strictly rising, and no cell that holds what an unlisted address reads as. -/
def Memory.wf : Memory → Bool
  | [] => true
  | (a, b) :: rest =>
    decide (b ≠ Config.unlistedByte) && rest.all (fun c => decide (a < c.1)) && Memory.wf rest

/-- `Mem[a]`: the byte at an address (10_state.md R130). -/
def Memory.byteAt : Memory → Nat → Byte
  | [], _ => Config.unlistedByte
  | (a', b) :: rest, a => if a' = a then b else Memory.byteAt rest a

/-- Puts a cell before the first one of a higher address. -/
def Memory.insertCell (a : Nat) (b : Byte) : Memory → Memory
  | [] => [(a, b)]
  | c :: rest => if a < c.1 then (a, b) :: c :: rest else c :: Memory.insertCell a b rest

/-- `Mem[a] <- b`. The old cell goes; a new one comes unless the byte is what an unlisted address reads as, so that equal
memories are equal lists. -/
def Memory.setByte (m : Memory) (a : Nat) (b : Byte) : Memory :=
  let m' := m.filter (fun c => decide (c.1 ≠ a))
  if b = Config.unlistedByte then m' else Memory.insertCell a b m'

/-- The `n` bytes from an address up, lowest address first. -/
def Memory.bytesFrom (m : Memory) : Nat → Nat → List Byte
  | _, 0 => []
  | a, n + 1 => m.byteAt a :: m.bytesFrom (a + 1) n

/-- Stores bytes from an address up. -/
def Memory.setBytes (m : Memory) : Nat → List Byte → Memory
  | _, [] => m
  | a, b :: bs => (m.setByte a b).setBytes (a + 1) bs

/-- `InBounds(addr, n)`: `addr + n <= C` over the naturals, no wrap (20_memory.md R137, log 12). -/
def State.inBounds (s : State) (addr : Qword) (w : Width) : Bool := decide (addr.toNat + w.bytes ≤ s.capacity)

/-- `MemRead(addr, n)`, the value zero-extended to 64 bits (20_memory.md R138, log 25). -/
def memRead (s : State) (addr : Qword) (w : Width) : Except Fault Qword :=
  if s.inBounds addr w then .ok (BitVec.ofNat 64 (joinLE (s.mem.bytesFrom addr.toNat w.bytes)))
  else .error .outOfBounds

/-- `MemWrite(addr, n, v)`: the low `n` bytes of `v`, least significant at the lowest address. The bounds test comes before
any byte is stored (20_memory.md R139, R145). -/
def memWrite (s : State) (addr : Qword) (w : Width) (v : Qword) : Except Fault State :=
  if s.inBounds addr w then .ok { s with mem := s.mem.setBytes addr.toNat (splitLE w.bytes v.toNat) }
  else .error .outOfBounds

/-- `load_boot_image(image)`: copies the image to the highest addresses and answers the offset; an image longer than the
capacity changes nothing (20_memory.md R154). -/
def loadBootImage (s : State) (image : List Byte) : Except Fault (State × Nat) :=
  if s.capacity < image.length then .error .imageTooLarge
  else .ok ({ s with mem := s.mem.setBytes (s.capacity - image.length) image }, s.capacity - image.length)

/-! ### Taking a fault -/

/-- `raise F`: the fault is latched and the run state is Error, and this only (60_exceptions.md R239). There is no handler, no
saved state and no mode, and there is no return from a fault (R241). -/
def raiseFault (f : Fault) (s : State) : State := { s with fault := some f, runState := .error }

/-- How an instruction ends in the execute phase: with its one write done, or with a fault raised on the state as the execute
phase found it, the program counter at `pc1` (40_cycle.md R181, R183, log 6). -/
def finish (s : State) (r : Except Fault State) : Result :=
  match r with
  | .ok s' => .next s'
  | .error f => .next (raiseFault f s)

/-- The numeric code of the fault latch, the spec's own numbering (60_exceptions.md R231, log 7). -/
def faultCode : Option Fault → Nat
  | none => 0
  | some .imageTooLarge => 1
  | some .unknownOpcode => 2
  | some .outOfBounds => 3
  | some .invalidRegisterCode => 4

end Sys2Proof.Machine
end

