-- ==== Sys2Proof/Machine/IncDec.lean ====
section
/-!
DEFINITION. Increment and Decrement (44_incdec.md R228, R229).
-/

namespace Sys2Proof.Machine

/-- `Inc`: RCOUNT plus 1 modulo 2^64, no flag, no fault (44_incdec.md R228). -/
def execInc (s : State) : Result := .next (s.setReg .rcount (s.reg .rcount + 1))

/-- `Dec`: RCOUNT minus 1 modulo 2^64, no flag, no fault (44_incdec.md R229). -/
def execDec (s : State) : Result := .next (s.setReg .rcount (s.reg .rcount - 1))

end Sys2Proof.Machine
end

