-- ==== Sys2Proof/Machine/Operands.lean ====
section
/-!
DEFINITION. How an operand becomes a value or an address (40_cycle.md R179, R180). These two are all the operand forms.
-/

namespace Sys2Proof.Machine

/-- `SrcValue(op, n)`: the low `n` bytes of a register, or the immediate (40_cycle.md R179, log 13). -/
def srcValue (s : State) (op : Operand) (w : Width) : Except Fault Qword :=
  match op with
  | .reg c =>
    match regGet s c with
    | .error f => .error f
    | .ok v => .ok (trunc w v)
  | .imm _ v => .ok v

/-- `AddrValue(op)`: the register's whole 64-bit value, or the address immediate; no offset, index or update
(40_cycle.md R180). -/
def addrValue (s : State) (op : Operand) : Except Fault Qword :=
  match op with
  | .reg c => regGet s c
  | .imm _ v => .ok v

end Sys2Proof.Machine
end

