-- ==== Sys2Proof/Machine/Load.lean ====
section
/-!
DEFINITION. The Load family (43_load.md R217 to R227).
-/

namespace Sys2Proof.Machine

/-- `Load(n, src, dd)`: the address is resolved, `n` bytes are read, and the zero-extended value replaces the whole
destination register (R217); the memory access comes before the check of the destination code (R218). -/
def load (w : Width) (src : Operand) (dd : Byte) (s : State) : Result :=
  finish s <|
    match addrValue s src with
    | .error f => .error f
    | .ok addr =>
      match memRead s addr w with
      | .error f => .error f
      | .ok v => regSet s dd v

/-- `LoadBRToR` (43_load.md R220). -/
def execLoadBRToR (aa : Byte) (dd : Byte) (s : State) : Result := load .byte (.reg aa) dd s

/-- `LoadWRToR` (43_load.md R221). -/
def execLoadWRToR (aa : Byte) (dd : Byte) (s : State) : Result := load .word (.reg aa) dd s

/-- `LoadDRToR` (43_load.md R222). -/
def execLoadDRToR (aa : Byte) (dd : Byte) (s : State) : Result := load .dword (.reg aa) dd s

/-- `LoadQRToR` (43_load.md R223). -/
def execLoadQRToR (aa : Byte) (dd : Byte) (s : State) : Result := load .qword (.reg aa) dd s

/-- `LoadBIToR` (43_load.md R224). -/
def execLoadBIToR (addr : Qword) (dd : Byte) (s : State) : Result := load .byte (.imm .qword addr) dd s

/-- `LoadWIToR` (43_load.md R225). -/
def execLoadWIToR (addr : Qword) (dd : Byte) (s : State) : Result := load .word (.imm .qword addr) dd s

/-- `LoadDIToR` (43_load.md R226). -/
def execLoadDIToR (addr : Qword) (dd : Byte) (s : State) : Result := load .dword (.imm .qword addr) dd s

/-- `LoadQIToR` (43_load.md R227). -/
def execLoadQIToR (addr : Qword) (dd : Byte) (s : State) : Result := load .qword (.imm .qword addr) dd s

end Sys2Proof.Machine
end

