-- ==== Sys2Proof/Machine/Move.lean ====
section
/-!
DEFINITION. The Move family (41_move.md R186 to R197).
-/

namespace Sys2Proof.Machine

/-- `MovNarrow(n, src, dd)`: the low `n` bytes of the destination are replaced, the bytes above keep their value (R187). -/
def moveNarrow (w : Width) (src : Operand) (dd : Byte) (s : State) : Result :=
  finish s <|
    match srcValue s src w with
    | .error f => .error f
    | .ok v => regMergeLow s dd w v

/-- `MovFull(src, dd)`: all 64 bits of the destination are replaced (R188). -/
def moveFull (src : Operand) (dd : Byte) (s : State) : Result :=
  finish s <|
    match srcValue s src .qword with
    | .error f => .error f
    | .ok v => regSet s dd v

/-- `MovBRToR` (41_move.md R190). -/
def execMovBRToR (ss : Byte) (dd : Byte) (s : State) : Result := moveNarrow .byte (.reg ss) dd s

/-- `MovWRToR` (41_move.md R191). -/
def execMovWRToR (ss : Byte) (dd : Byte) (s : State) : Result := moveNarrow .word (.reg ss) dd s

/-- `MovDRToR` (41_move.md R192). -/
def execMovDRToR (ss : Byte) (dd : Byte) (s : State) : Result := moveNarrow .dword (.reg ss) dd s

/-- `MovR` (41_move.md R193). -/
def execMovR (ss : Byte) (dd : Byte) (s : State) : Result := moveFull (.reg ss) dd s

/-- `MovBIToR` (41_move.md R194). -/
def execMovBIToR (imm : BitVec 8) (dd : Byte) (s : State) : Result := moveNarrow .byte (.imm .byte (imm.setWidth 64)) dd s

/-- `MovWIToR` (41_move.md R195). -/
def execMovWIToR (imm : BitVec 16) (dd : Byte) (s : State) : Result := moveNarrow .word (.imm .word (imm.setWidth 64)) dd s

/-- `MovDIToR` (41_move.md R196). -/
def execMovDIToR (imm : BitVec 32) (dd : Byte) (s : State) : Result := moveNarrow .dword (.imm .dword (imm.setWidth 64)) dd s

/-- `MovI` (41_move.md R197). -/
def execMovI (imm : Qword) (dd : Byte) (s : State) : Result := moveFull (.imm .qword imm) dd s

end Sys2Proof.Machine
end

