-- ==== Sys2Proof/Machine/Save.lean ====
section
/-!
DEFINITION. The Save family, this hardware's store (42_save.md R198 to R216).
-/

namespace Sys2Proof.Machine

/-- `Save(n, src, dst)`: the source is resolved, then the address, then `n` bytes are stored (R198, R199). -/
def save (w : Width) (src dst : Operand) (s : State) : Result :=
  finish s <|
    match srcValue s src w with
    | .error f => .error f
    | .ok v =>
      match addrValue s dst with
      | .error f => .error f
      | .ok addr => memWrite s addr w v

/-- `SaveBRToR` (42_save.md R201). -/
def execSaveBRToR (ss : Byte) (aa : Byte) (s : State) : Result := save .byte (.reg ss) (.reg aa) s

/-- `SaveWRToR` (42_save.md R202). -/
def execSaveWRToR (ss : Byte) (aa : Byte) (s : State) : Result := save .word (.reg ss) (.reg aa) s

/-- `SaveDRToR` (42_save.md R203). -/
def execSaveDRToR (ss : Byte) (aa : Byte) (s : State) : Result := save .dword (.reg ss) (.reg aa) s

/-- `SaveQRToR` (42_save.md R204). -/
def execSaveQRToR (ss : Byte) (aa : Byte) (s : State) : Result := save .qword (.reg ss) (.reg aa) s

/-- `SaveBIToR` (42_save.md R205). -/
def execSaveBIToR (imm : BitVec 8) (aa : Byte) (s : State) : Result := save .byte (.imm .byte (imm.setWidth 64)) (.reg aa) s

/-- `SaveWIToR` (42_save.md R206). -/
def execSaveWIToR (imm : BitVec 16) (aa : Byte) (s : State) : Result := save .word (.imm .word (imm.setWidth 64)) (.reg aa) s

/-- `SaveDIToR` (42_save.md R207). -/
def execSaveDIToR (imm : BitVec 32) (aa : Byte) (s : State) : Result := save .dword (.imm .dword (imm.setWidth 64)) (.reg aa) s

/-- `SaveQIToR` (42_save.md R208). -/
def execSaveQIToR (imm : Qword) (aa : Byte) (s : State) : Result := save .qword (.imm .qword imm) (.reg aa) s

/-- `SaveBRToI` (42_save.md R209). -/
def execSaveBRToI (ss : Byte) (addr : Qword) (s : State) : Result := save .byte (.reg ss) (.imm .qword addr) s

/-- `SaveWRToI` (42_save.md R210). -/
def execSaveWRToI (ss : Byte) (addr : Qword) (s : State) : Result := save .word (.reg ss) (.imm .qword addr) s

/-- `SaveDRToI` (42_save.md R211). -/
def execSaveDRToI (ss : Byte) (addr : Qword) (s : State) : Result := save .dword (.reg ss) (.imm .qword addr) s

/-- `SaveQRToI` (42_save.md R212). -/
def execSaveQRToI (ss : Byte) (addr : Qword) (s : State) : Result := save .qword (.reg ss) (.imm .qword addr) s

/-- `SaveBIToI` (42_save.md R213). -/
def execSaveBIToI (imm : BitVec 8) (addr : Qword) (s : State) : Result := save .byte (.imm .byte (imm.setWidth 64)) (.imm .qword addr) s

/-- `SaveWIToI` (42_save.md R214). -/
def execSaveWIToI (imm : BitVec 16) (addr : Qword) (s : State) : Result := save .word (.imm .word (imm.setWidth 64)) (.imm .qword addr) s

/-- `SaveDIToI` (42_save.md R215). -/
def execSaveDIToI (imm : BitVec 32) (addr : Qword) (s : State) : Result := save .dword (.imm .dword (imm.setWidth 64)) (.imm .qword addr) s

/-- `SaveQIToI` (42_save.md R216). -/
def execSaveQIToI (imm : Qword) (addr : Qword) (s : State) : Result := save .qword (.imm .qword imm) (.imm .qword addr) s

end Sys2Proof.Machine
end

