-- ==== Sys2Proof/Machine/Dispatch.lean ====
section
/-!
DEFINITION. `Execute(instr)`: one arm per opcode (40_cycle.md R176). The state it is given has the program counter at `pc1`.
-/

namespace Sys2Proof.Machine

def exec (i : Instr) (s : State) : Host.Outcome State Fault Refusal :=
  match i with
  | .movBRToR ss dd => Sys2Proof.Machine.execMovBRToR ss dd s
  | .movWRToR ss dd => Sys2Proof.Machine.execMovWRToR ss dd s
  | .movDRToR ss dd => Sys2Proof.Machine.execMovDRToR ss dd s
  | .movR ss dd => Sys2Proof.Machine.execMovR ss dd s
  | .movBIToR imm dd => Sys2Proof.Machine.execMovBIToR imm dd s
  | .movWIToR imm dd => Sys2Proof.Machine.execMovWIToR imm dd s
  | .movDIToR imm dd => Sys2Proof.Machine.execMovDIToR imm dd s
  | .movI imm dd => Sys2Proof.Machine.execMovI imm dd s
  | .saveBRToR ss aa => Sys2Proof.Machine.execSaveBRToR ss aa s
  | .saveWRToR ss aa => Sys2Proof.Machine.execSaveWRToR ss aa s
  | .saveDRToR ss aa => Sys2Proof.Machine.execSaveDRToR ss aa s
  | .saveQRToR ss aa => Sys2Proof.Machine.execSaveQRToR ss aa s
  | .saveBIToR imm aa => Sys2Proof.Machine.execSaveBIToR imm aa s
  | .saveWIToR imm aa => Sys2Proof.Machine.execSaveWIToR imm aa s
  | .saveDIToR imm aa => Sys2Proof.Machine.execSaveDIToR imm aa s
  | .saveQIToR imm aa => Sys2Proof.Machine.execSaveQIToR imm aa s
  | .saveBRToI ss addr => Sys2Proof.Machine.execSaveBRToI ss addr s
  | .saveWRToI ss addr => Sys2Proof.Machine.execSaveWRToI ss addr s
  | .saveDRToI ss addr => Sys2Proof.Machine.execSaveDRToI ss addr s
  | .saveQRToI ss addr => Sys2Proof.Machine.execSaveQRToI ss addr s
  | .saveBIToI imm addr => Sys2Proof.Machine.execSaveBIToI imm addr s
  | .saveWIToI imm addr => Sys2Proof.Machine.execSaveWIToI imm addr s
  | .saveDIToI imm addr => Sys2Proof.Machine.execSaveDIToI imm addr s
  | .saveQIToI imm addr => Sys2Proof.Machine.execSaveQIToI imm addr s
  | .loadBRToR aa dd => Sys2Proof.Machine.execLoadBRToR aa dd s
  | .loadWRToR aa dd => Sys2Proof.Machine.execLoadWRToR aa dd s
  | .loadDRToR aa dd => Sys2Proof.Machine.execLoadDRToR aa dd s
  | .loadQRToR aa dd => Sys2Proof.Machine.execLoadQRToR aa dd s
  | .loadBIToR addr dd => Sys2Proof.Machine.execLoadBIToR addr dd s
  | .loadWIToR addr dd => Sys2Proof.Machine.execLoadWIToR addr dd s
  | .loadDIToR addr dd => Sys2Proof.Machine.execLoadDIToR addr dd s
  | .loadQIToR addr dd => Sys2Proof.Machine.execLoadQIToR addr dd s
  | .inc => Sys2Proof.Machine.execInc s
  | .dec => Sys2Proof.Machine.execDec s

end Sys2Proof.Machine
end

