-- ==== Sys2Proof/WellFormed.lean ====
section
/-!
DEFINITION. When a written instruction is well formed (30_encoding.md R155 to R158, R164, R173).
`Written` is the spec's own view of an instruction: an opcode and a list of operands "whose count and kinds are fixed per
opcode". It can be ill-formed: the operands may not have the opcode's kinds, or an immediate may not fit its width.
A register code is never ill-formed: the decoder accepts all 256 values (R156, R168).
-/

namespace Sys2Proof

/-- The kind of an operand. -/
def Operand.kind : Operand → OperandKind
  | .reg _ => .reg
  | .imm w _ => .imm w

/-- An immediate fits its width; "an immediate that does not fit its width is an error of the writer" (R173). -/
def Operand.fits : Operand → Bool
  | .reg _ => true
  | .imm w v => decide (v.toNat < 2 ^ w.bits)

/-- The kinds of the operands of each opcode, read from the columns "operand 1" and "operand 2" of R164. -/
def Mnemonic.shape : Mnemonic → List OperandKind
  | .movBRToR | .movWRToR | .movDRToR | .movR | .saveBRToR | .saveWRToR | .saveDRToR | .saveQRToR | .loadBRToR
  | .loadWRToR | .loadDRToR | .loadQRToR => [.reg, .reg]
  | .movBIToR | .saveBIToR => [.imm .byte, .reg]
  | .movWIToR | .saveWIToR => [.imm .word, .reg]
  | .movDIToR | .saveDIToR => [.imm .dword, .reg]
  | .movI | .saveQIToR | .loadBIToR | .loadWIToR | .loadDIToR | .loadQIToR => [.imm .qword, .reg]
  | .saveBRToI | .saveWRToI | .saveDRToI | .saveQRToI => [.reg, .imm .qword]
  | .saveBIToI => [.imm .byte, .imm .qword]
  | .saveWIToI => [.imm .word, .imm .qword]
  | .saveDIToI => [.imm .dword, .imm .qword]
  | .saveQIToI => [.imm .qword, .imm .qword]
  | .inc | .dec => []

/-- An instruction as it is written: an opcode and an ordered list of operands (R155). -/
structure Written where
  mnemonic : Mnemonic
  operands : List Operand
  deriving DecidableEq, Repr

/-- The operands have the count and the kinds of the opcode, and every immediate fits. -/
def Written.wellFormed (x : Written) : Bool :=
  decide (x.operands.map Operand.kind = x.mnemonic.shape) && x.operands.all Operand.fits

/-- An `Instr` as it is written. -/
def Instr.written (i : Instr) : Written := { mnemonic := i.mnemonic, operands := i.operands }

/-- An instruction is well formed when its written form is; the field types of `Instr` make it so
(Laws.Shape, one lemma per constructor). -/
def Instr.wellFormed (i : Instr) : Bool := i.written.wellFormed

end Sys2Proof
end

