-- ==== Sys2Proof/Decode.lean ====
section
/-!
DEFINITION. The decoder and the encoder (30_encoding.md).
Every opcode number stands in `opcodeTable` and nowhere else, so that the table can be replaced (R165, log 1).
-/

namespace Sys2Proof

/-- The operand shape of each format (R160). -/
def Format.shape : Format → List OperandKind
  | .n => []
  | .rr => [.reg, .reg]
  | .i1r => [.imm .byte, .reg]
  | .i2r => [.imm .word, .reg]
  | .i4r => [.imm .dword, .reg]
  | .i8r => [.imm .qword, .reg]
  | .ri8 => [.reg, .imm .qword]
  | .i1i8 => [.imm .byte, .imm .qword]
  | .i2i8 => [.imm .word, .imm .qword]
  | .i4i8 => [.imm .dword, .imm .qword]
  | .i8i8 => [.imm .qword, .imm .qword]

/-- The bytes an operand of a kind takes in the instruction stream (R156, R157). -/
def OperandKind.bytes : OperandKind → Nat
  | .reg => 1
  | .imm w => w.bytes

/-- The length of an instruction of a format: one opcode byte and its operands (R159). -/
def Format.length (f : Format) : Nat := 1 + (f.shape.map OperandKind.bytes).sum

/-- One row of the opcode map (R164). -/
structure Row where
  opcode : Byte
  mnemonic : Mnemonic
  family : Family
  width : Width
  format : Format
  deriving DecidableEq, Repr

/-- The rows of the Move family (R164). -/
def moveRows : List Row :=
  [ ⟨0x00, .movBRToR, .move, .byte, .rr⟩,
    ⟨0x01, .movWRToR, .move, .word, .rr⟩,
    ⟨0x02, .movDRToR, .move, .dword, .rr⟩,
    ⟨0x03, .movR, .move, .qword, .rr⟩,
    ⟨0x04, .movBIToR, .move, .byte, .i1r⟩,
    ⟨0x05, .movWIToR, .move, .word, .i2r⟩,
    ⟨0x06, .movDIToR, .move, .dword, .i4r⟩,
    ⟨0x07, .movI, .move, .qword, .i8r⟩ ]

/-- The rows of the Save family (R164). -/
def saveRows : List Row :=
  [ ⟨0x08, .saveBRToR, .save, .byte, .rr⟩,
    ⟨0x09, .saveWRToR, .save, .word, .rr⟩,
    ⟨0x0A, .saveDRToR, .save, .dword, .rr⟩,
    ⟨0x0B, .saveQRToR, .save, .qword, .rr⟩,
    ⟨0x0C, .saveBIToR, .save, .byte, .i1r⟩,
    ⟨0x0D, .saveWIToR, .save, .word, .i2r⟩,
    ⟨0x0E, .saveDIToR, .save, .dword, .i4r⟩,
    ⟨0x0F, .saveQIToR, .save, .qword, .i8r⟩,
    ⟨0x10, .saveBRToI, .save, .byte, .ri8⟩,
    ⟨0x11, .saveWRToI, .save, .word, .ri8⟩,
    ⟨0x12, .saveDRToI, .save, .dword, .ri8⟩,
    ⟨0x13, .saveQRToI, .save, .qword, .ri8⟩,
    ⟨0x14, .saveBIToI, .save, .byte, .i1i8⟩,
    ⟨0x15, .saveWIToI, .save, .word, .i2i8⟩,
    ⟨0x16, .saveDIToI, .save, .dword, .i4i8⟩,
    ⟨0x17, .saveQIToI, .save, .qword, .i8i8⟩ ]

/-- The rows of the Load family (R164). -/
def loadRows : List Row :=
  [ ⟨0x18, .loadBRToR, .load, .byte, .rr⟩,
    ⟨0x19, .loadWRToR, .load, .word, .rr⟩,
    ⟨0x1A, .loadDRToR, .load, .dword, .rr⟩,
    ⟨0x1B, .loadQRToR, .load, .qword, .rr⟩,
    ⟨0x1C, .loadBIToR, .load, .byte, .i8r⟩,
    ⟨0x1D, .loadWIToR, .load, .word, .i8r⟩,
    ⟨0x1E, .loadDIToR, .load, .dword, .i8r⟩,
    ⟨0x1F, .loadQIToR, .load, .qword, .i8r⟩ ]

/-- The rows of the Increment/Decrement family (R164). -/
def incDecRows : List Row :=
  [ ⟨0x20, .inc, .incDec, .qword, .n⟩,
    ⟨0x21, .dec, .incDec, .qword, .n⟩ ]

/-- The closed enumeration of opcodes, 34 rows (R164, R165). -/
def opcodeTable : List Row := moveRows ++ saveRows ++ loadRows ++ incDecRows

/-- The row an opcode byte selects; none for 0x22 to 0xFF (R166). -/
def rowOfOpcode (op : Byte) : Option Row := opcodeTable.find? (fun r => r.opcode == op)

/-- The row of a mnemonic. -/
def Mnemonic.row? (m : Mnemonic) : Option Row := opcodeTable.find? (fun r => r.mnemonic == m)

/-- The opcode byte of a mnemonic, from the table. Every mnemonic has a row; the byte for none (0xFF, no opcode) is never
used. -/
def Mnemonic.opcode (m : Mnemonic) : Byte := (m.row?.map Row.opcode).getD 0xFF

/-- Reads two operands of the kinds named, register or immediate; none for any other list. -/
def Operand.regReg (f : Byte → Byte → Instr) : List Operand → Option Instr
  | [.reg a, .reg b] => some (f a b)
  | _ => none

/-- A data or address immediate of width `w`, then a register. -/
def Operand.immReg (w : Width) (f : BitVec w.bits → Byte → Instr) : List Operand → Option Instr
  | [.imm w' v, .reg b] => if w' = w then some (f (v.setWidth w.bits) b) else none
  | _ => none

/-- A register, then an address immediate. -/
def Operand.regImm (f : Byte → Qword → Instr) : List Operand → Option Instr
  | [.reg a, .imm .qword v] => some (f a v)
  | _ => none

/-- A data immediate of width `w`, then an address immediate. -/
def Operand.immImm (w : Width) (f : BitVec w.bits → Qword → Instr) : List Operand → Option Instr
  | [.imm w' v, .imm .qword x] => if w' = w then some (f (v.setWidth w.bits) x) else none
  | _ => none

/-- The instruction that an opcode and its operands make (R155). -/
def Instr.ofOperands (m : Mnemonic) (ops : List Operand) : Option Instr :=
  match m with
  | .movBRToR => Operand.regReg .movBRToR ops
  | .movWRToR => Operand.regReg .movWRToR ops
  | .movDRToR => Operand.regReg .movDRToR ops
  | .movR => Operand.regReg .movR ops
  | .movBIToR => Operand.immReg .byte .movBIToR ops
  | .movWIToR => Operand.immReg .word .movWIToR ops
  | .movDIToR => Operand.immReg .dword .movDIToR ops
  | .movI => Operand.immReg .qword .movI ops
  | .saveBRToR => Operand.regReg .saveBRToR ops
  | .saveWRToR => Operand.regReg .saveWRToR ops
  | .saveDRToR => Operand.regReg .saveDRToR ops
  | .saveQRToR => Operand.regReg .saveQRToR ops
  | .saveBIToR => Operand.immReg .byte .saveBIToR ops
  | .saveWIToR => Operand.immReg .word .saveWIToR ops
  | .saveDIToR => Operand.immReg .dword .saveDIToR ops
  | .saveQIToR => Operand.immReg .qword .saveQIToR ops
  | .saveBRToI => Operand.regImm .saveBRToI ops
  | .saveWRToI => Operand.regImm .saveWRToI ops
  | .saveDRToI => Operand.regImm .saveDRToI ops
  | .saveQRToI => Operand.regImm .saveQRToI ops
  | .saveBIToI => Operand.immImm .byte .saveBIToI ops
  | .saveWIToI => Operand.immImm .word .saveWIToI ops
  | .saveDIToI => Operand.immImm .dword .saveDIToI ops
  | .saveQIToI => Operand.immImm .qword .saveQIToI ops
  | .loadBRToR => Operand.regReg .loadBRToR ops
  | .loadWRToR => Operand.regReg .loadWRToR ops
  | .loadDRToR => Operand.regReg .loadDRToR ops
  | .loadQRToR => Operand.regReg .loadQRToR ops
  | .loadBIToR => Operand.immReg .qword .loadBIToR ops
  | .loadWIToR => Operand.immReg .qword .loadWIToR ops
  | .loadDIToR => Operand.immReg .qword .loadDIToR ops
  | .loadQIToR => Operand.immReg .qword .loadQIToR ops
  | .inc => if ops = [] then some .inc else none
  | .dec => if ops = [] then some .dec else none

/-- Reads operands in order, consuming 1 byte for a register and 1, 2, 4 or 8 for an immediate (R170); none as soon as one
does not fit in the bytes that are left (R171). -/
def readOperands : List OperandKind → List Byte → Option (List Operand × List Byte)
  | [], bs => some ([], bs)
  | .reg :: ks, bs =>
    match bs with
    | [] => none
    | b :: bs' =>
      match readOperands ks bs' with
      | none => none
      | some (ops, rest) => some (.reg b :: ops, rest)
  | .imm w :: ks, bs =>
    if bs.length < w.bytes then none
    else
      match readOperands ks (bs.drop w.bytes) with
      | none => none
      | some (ops, rest) => some (.imm w (BitVec.ofNat 64 (joinLE (bs.take w.bytes))) :: ops, rest)

/-- What the decoder answers. -/
inductive Decoded where
  /-- An instruction, and the bytes after it. -/
  | instr (i : Instr) (rest : List Byte)
  /-- The first byte is no opcode (R166). -/
  | unknownOpcode
  /-- The bytes end inside the instruction, or there is none (R171). -/
  | truncated
  deriving DecidableEq, Repr

/-- The decoder, total on any bytes (R170). The opcode is examined before any operand, so an unknown opcode in the last byte
is `unknownOpcode` (R171). It reads no register and checks no register code (R156, R172). -/
def decode : List Byte → Decoded
  | [] => .truncated
  | op :: bs =>
    match rowOfOpcode op with
    | none => .unknownOpcode
    | some r =>
      match readOperands r.format.shape bs with
      | none => .truncated
      | some (ops, rest) =>
        match Instr.ofOperands r.mnemonic ops with
        | some i => .instr i rest
        | none => .unknownOpcode   -- no row of the table comes here: Laws.Decode, ofOperands_of_shape

/-- The bytes of an operand in the instruction stream (R156, R157). -/
def Operand.encode : Operand → List Byte
  | .reg c => [c]
  | .imm w v => splitLE w.bytes v.toNat

/-- The bytes of an instruction, the opcode byte first, then the operands in order (R155, R158). -/
def encode (i : Instr) : List Byte := i.mnemonic.opcode :: i.operands.flatMap Operand.encode

/-- The bytes of a word that is numbered as the opcode table numbers its bits: bits 7..0 are the first byte. Bits from `nbits`
up are 0, up to the longest instruction. -/
def tableWordBytes (nbits w : Nat) : List Byte := splitLE Config.maxInstrBytes (w % 2 ^ nbits)

/-- The instruction the decoder reads from a word numbered as the opcode table numbers it. -/
def decodeTableWord (nbits w : Nat) : Option Instr :=
  match decode (tableWordBytes nbits w) with
  | .instr i _ => some i
  | .unknownOpcode => none
  | .truncated => none

end Sys2Proof
end

