-- ==== Sys2Proof/Machine/Fetch.lean ====
section
/-!
DEFINITION. What a step fetches, and how a decode-phase fault is named.
-/

namespace Sys2Proof.Machine

/-- The bytes the decoder can see: from the program counter up, below the capacity, at most the longest instruction. The
spec's decoder reads its operands one by one (30_encoding.md R170); it sees the same bytes (log 26). -/
def State.fetchBytes (s : State) : List Byte :=
  s.mem.bytesFrom s.pc.toNat (min Config.maxInstrBytes (s.capacity - s.pc.toNat))

/-- `raise UnknownOpcode` in the decode phase: the program counter stays at `pc0` (60_exceptions.md R233, 40_cycle.md R183). -/
def raiseUnknownOpcode (s : State) : State := raiseFault .unknownOpcode s

/-- `raise OutOfBounds` on an operand fetch: the program counter stays at `pc0` (30_encoding.md R171, 40_cycle.md R183). -/
def raiseTruncated (s : State) : State := raiseFault .outOfBounds s

/-- The state the execute phase starts from: the program counter at `pc1`, past the bytes the decoder consumed
(40_cycle.md R178). -/
def State.afterFetch (s : State) (rest : List Byte) : State := s.advancePc (s.fetchBytes.length - rest.length)

/-- Where a word placed from outside is put: at the program counter, or at address 0 when the longest instruction at the
program counter would not lie below 2^64 (log 22). -/
def State.fetchBase (s : State) : Nat :=
  if s.pc.toNat + Config.maxInstrBytes < Config.addressLimit then s.pc.toNat else 0

/-- Places an instruction where the next step fetches: its bytes stand at the program counter, the capacity is large enough
for the longest instruction, and the session is Running with no fault. Applied to State.reset this is the session created
from an image of those 17 bytes with the default capacity, started (70_reset_and_hazards.md R252, R254, log 22). -/
def State.placeInstr (s : State) (bytes : List Byte) : State :=
  let base := s.fetchBase
  { (s.setReg .programCounter (BitVec.ofNat 64 base)) with
    mem := s.mem.setBytes base bytes
    capacity := max s.capacity (base + Config.maxInstrBytes)
    runState := .running
    fault := none }

end Sys2Proof.Machine
end

