-- ==== Sys2Proof/Machine/Session.lean ====
section
/-!
DEFINITION. The host interface outside a run: creating a session, presets, starting, inspecting
(70_reset_and_hazards.md R251 to R257).
-/

namespace Sys2Proof.Machine

/-- The capacity of a session: the host's, or the image length plus 20 (20_memory.md R153). -/
def sessionCapacity (image : List Byte) (capacity : Option Nat) : Nat :=
  capacity.getD (image.length + Config.defaultHeadroom)

/-- Steps 1 to 4 of the reset sequence: the capacity, memory and registers 0, no fault (70_reset_and_hazards.md R252). -/
def blankSession (capacity : Nat) (strictRegs : Bool) : State where
  regs := Regs.zero
  mem := []
  runState := .ready
  fault := none
  capacity := capacity
  strictRegs := strictRegs

/-- Steps 5 to 8: the image is loaded and its offset written to `ProgramStartLocation` and `ProgramCounter`; an image that
does not fit leaves the session in Error (70_reset_and_hazards.md R252, 60_exceptions.md R232). -/
def bootSession (s : State) (image : List Byte) : State :=
  match loadBootImage s image with
  | .error f => raiseFault f s
  | .ok (s', offset) =>
    (s'.setReg .programStartLocation (BitVec.ofNat 64 offset)).setReg .programCounter (BitVec.ofNat 64 offset)

/-- `new(image, capacity?)`, with STRICT_REGS as a third argument (70_reset_and_hazards.md R251, R252). A capacity or an
image length of 2^64 or more is not a session (93_implementation_defined.md U15). -/
def newSession (image : List Byte) (capacity : Option Nat) (strictRegs : Bool) : Result :=
  if sessionCapacity image capacity < Config.addressLimit ∧ image.length < Config.addressLimit then
    .next (bootSession (blankSession (sessionCapacity image capacity) strictRegs) image)
  else .refused .notASession

/-- In Ready the host may overwrite any register, whatever STRICT_REGS is (70_reset_and_hazards.md R253). -/
def presetReg (n : RegName) (v : Qword) (s : State) : Result :=
  match s.runState with
  | .ready => .next (s.setReg n v)
  | .running => .refused .sessionNotReady
  | .halted => .refused .sessionNotReady
  | .error => .refused .sessionNotReady

/-- In Ready the host may overwrite any byte below the capacity (70_reset_and_hazards.md R253). -/
def presetByte (a : Nat) (b : Byte) (s : State) : Result :=
  match s.runState with
  | .ready => if a < s.capacity then .next { s with mem := s.mem.setByte a b } else .refused .noSuchAddress
  | .running => .refused .sessionNotReady
  | .halted => .refused .sessionNotReady
  | .error => .refused .sessionNotReady

/-- The host starts the run: Ready becomes Running and nothing else changes (70_reset_and_hazards.md R254). -/
def startRun (s : State) : State := { s with runState := .running }

/-- The end of a run: Running becomes Halted and nothing else changes (40_cycle.md R177). -/
def halt (s : State) : State := { s with runState := .halted }

/-- The inspector's `register(code)`, outside Running; a code above 0x10 is refused (70_reset_and_hazards.md R255, log 18). -/
def inspectReg (c : Byte) (s : State) : Except Refusal Qword :=
  match s.runState, RegName.ofCode c with
  | .running, _ => .error .sessionRunning
  | _, none => .error .noSuchRegister
  | _, some n => .ok (s.reg n)

/-- The inspector's `memory_byte(addr)`, outside Running; an address at or above the capacity is refused
(70_reset_and_hazards.md R255, log 18). -/
def inspectByte (a : Nat) (s : State) : Except Refusal Byte :=
  match s.runState with
  | .running => .error .sessionRunning
  | _ => if a < s.capacity then .ok (s.mem.byteAt a) else .error .noSuchAddress

/-- The inspector's iteration over memory, outside Running: the C bytes in address order (70_reset_and_hazards.md R255). -/
def inspectMemory (s : State) : Except Refusal (List Byte) :=
  match s.runState with
  | .running => .error .sessionRunning
  | _ => .ok (s.mem.bytesFrom 0 s.capacity)

end Sys2Proof.Machine
end

