-- ==== Sys2Proof/Machine/Step.lean ====
section
/-!
DEFINITION. One step of the run loop (40_cycle.md R176).
-/

namespace Sys2Proof.Machine

/-- One step. Ready: the host starts the run (70_reset_and_hazards.md R254, log 22). Running: halt when the program counter is
at or above the capacity (R177); else decode, write `pc1` to the program counter, execute (R176, R178); a decode-phase fault
is raised on the state as it was (R183). Halted and Error are terminal (10_state.md R131): Halted has no step, and Error
surfaces its fault (60_exceptions.md R239, log 19, log 23). -/
def step (s : State) : Host.Outcome State Fault Refusal :=
  match s.runState with
  | .ready => .next (startRun s)
  | .running =>
    if s.capacity ≤ s.pc.toNat then .next (halt s)
    else
      match decode s.fetchBytes with
      | .unknownOpcode => .next (raiseUnknownOpcode s)
      | .truncated => .next (raiseTruncated s)
      | .instr i rest => exec i (s.afterFetch rest)
  | .halted => .refused .sessionHalted
  | .error =>
    match s.fault with
    | some f => .fault f
    | none => .refused .errorWithoutFault

/-- The state with an instruction, given as a word numbered as the opcode table numbers it, where step fetches next. -/
def State.withFetchWord (s : State) (nbits w : Nat) : State := s.placeInstr (tableWordBytes nbits w)

end Sys2Proof.Machine
end

