-- ==== Sys2Proof/Machine/Flags.lean ====
section
/-!
DEFINITION. The flags (10_state.md R122, R123). They are all the flag computations the spec gives: no instruction reads or
writes a flag as a side effect (R124, log 8), so no meaning calls these.
-/

namespace Sys2Proof.Machine

/-- The four named flags (10_state.md R122). -/
inductive FlagName where
  | zero | carry | overflow | negative
  deriving DecidableEq, Repr

/-- The bit of a named flag in `Flags` (10_state.md R122). -/
def FlagName.bit : FlagName → Fin 8
  | .zero => 0
  | .carry => 1
  | .overflow => 2
  | .negative => 3

/-- `set_flag(b)`, `b` a bit index of the low byte (10_state.md R123, log 9). -/
def setFlag (s : State) (b : Fin 8) : State :=
  s.setReg .flags (s.reg .flags ||| (1#64 <<< b.val))

/-- `clear_flag(b)`: only bit `b` of the low byte can change (10_state.md R123). -/
def clearFlag (s : State) (b : Fin 8) : State :=
  s.setReg .flags (s.reg .flags &&& ~~~(1#64 <<< b.val))

/-- `is_flag_set(b)` (10_state.md R123). -/
def isFlagSet (s : State) (b : Fin 8) : Bool := (s.reg .flags).getLsbD b.val

end Sys2Proof.Machine
end

