-- ==== Sys2Proof/Machine/Run.lean ====
section
/-!
DEFINITION. `run(session)` with a step budget (70_reset_and_hazards.md R254, 93_implementation_defined.md U11).
-/

namespace Sys2Proof.Machine

/-- What a run answers. -/
inductive RunResult where
  /-- The run reached Halted, with its final state (R254). -/
  | halted (final : State)
  /-- The run ended in Error, with the fault's name (R254). -/
  | fault (f : Fault)
  /-- The budget is used up and the session is still Running; this is no fault (U11). -/
  | running (s : State)
  /-- The session is not one that `run` accepts. -/
  | refused (r : Refusal)
  deriving DecidableEq, Repr

/-- Repeats steps until Halted or Error, at most `k` of them. -/
def runLoop : Nat → State → RunResult
  | 0, s =>
    match s.runState with
    | .halted => .halted s
    | .error => (s.fault.map RunResult.fault).getD (.refused .errorWithoutFault)
    | _ => .running s
  | k + 1, s =>
    match s.runState with
    | .halted => .halted s
    | .error => (s.fault.map RunResult.fault).getD (.refused .errorWithoutFault)
    | _ =>
      match step s with
      | .next s' => runLoop k s'
      | .fault f => .fault f
      | .refused r => .refused r

/-- `run(session)`: from Ready, start and repeat steps; a session created in Error executes nothing and returns its fault
(R254). The spec gives no answer for any other session; DESIGN CHOICE (log 29): one that an earlier run left in Error answers
its fault again, executing nothing, and a Running or a Halted one is refused. -/
def runSession (k : Nat) (s : State) : RunResult :=
  match s.runState with
  | .ready => runLoop k (startRun s)
  | .error => (s.fault.map RunResult.fault).getD (.refused .errorWithoutFault)
  | .running => .refused .sessionNotReady
  | .halted => .refused .sessionNotReady

end Sys2Proof.Machine
end

