-- ==== Sys2Proof/Safety.lean ====
section
/-!
DEFINITION. What the claims call a session of the spec, and how a run may end.
-/

namespace Sys2Proof.Machine

/-- The parameter range: `0 <= C < 2^64` (00_scope.md R107). -/
abbrev State.CapacityInRange (s : State) : Prop := s.capacity < Config.addressLimit

/-- Every listed byte has an address of this memory: `Mem` is `Mem[0] .. Mem[C-1]` (10_state.md R130). -/
abbrev State.MemoryInside (s : State) : Prop := ∀ c ∈ s.mem, c.1 < s.capacity

/-- The fault latch is set exactly in Error (10_state.md R131, R132). -/
abbrev State.FaultLatched (s : State) : Prop := s.fault.isSome = decide (s.runState = .error)

/-- The invariant of a session: memory in canonical form and inside the capacity, the capacity in its range, the fault latch
set exactly in Error. -/
abbrev State.Inv (s : State) : Prop :=
  Memory.wf s.mem = true ∧ s.MemoryInside ∧ s.CapacityInRange ∧ s.FaultLatched

/-- The only normal end of a run (60_exceptions.md R243). -/
abbrev State.EndedNormally (s : State) : Prop := s.runState = .halted

/-- No step leaves the session (10_state.md R131). -/
abbrev State.Terminal (s : State) : Prop := s.runState = .halted ∨ s.runState = .error

/-! ### What an instruction writes, read from its operands -/

/-- The code of the register an instruction writes through its operands: the second operand of a Move or a Load; Save, Inc and
Dec have none (40_cycle.md R184). -/
def destCode : Instr → Option Byte
  | .movBRToR _ dd => some dd
  | .movWRToR _ dd => some dd
  | .movDRToR _ dd => some dd
  | .movR _ dd => some dd
  | .movBIToR _ dd => some dd
  | .movWIToR _ dd => some dd
  | .movDIToR _ dd => some dd
  | .movI _ dd => some dd
  | .saveBRToR _ _ => none
  | .saveWRToR _ _ => none
  | .saveDRToR _ _ => none
  | .saveQRToR _ _ => none
  | .saveBIToR _ _ => none
  | .saveWIToR _ _ => none
  | .saveDIToR _ _ => none
  | .saveQIToR _ _ => none
  | .saveBRToI _ _ => none
  | .saveWRToI _ _ => none
  | .saveDRToI _ _ => none
  | .saveQRToI _ _ => none
  | .saveBIToI _ _ => none
  | .saveWIToI _ _ => none
  | .saveDIToI _ _ => none
  | .saveQIToI _ _ => none
  | .loadBRToR _ dd => some dd
  | .loadWRToR _ dd => some dd
  | .loadDRToR _ dd => some dd
  | .loadQRToR _ dd => some dd
  | .loadBIToR _ dd => some dd
  | .loadWIToR _ dd => some dd
  | .loadDIToR _ dd => some dd
  | .loadQIToR _ dd => some dd
  | .inc => none
  | .dec => none

/-- The address operand and the width of a Save; no other instruction stores (20_memory.md R136, 42_save.md R198). -/
def storeOperand : Instr → Option (Operand × Width)
  | .movBRToR _ _ => none
  | .movWRToR _ _ => none
  | .movDRToR _ _ => none
  | .movR _ _ => none
  | .movBIToR _ _ => none
  | .movWIToR _ _ => none
  | .movDIToR _ _ => none
  | .movI _ _ => none
  | .saveBRToR _ aa => some (.reg aa, .byte)
  | .saveWRToR _ aa => some (.reg aa, .word)
  | .saveDRToR _ aa => some (.reg aa, .dword)
  | .saveQRToR _ aa => some (.reg aa, .qword)
  | .saveBIToR _ aa => some (.reg aa, .byte)
  | .saveWIToR _ aa => some (.reg aa, .word)
  | .saveDIToR _ aa => some (.reg aa, .dword)
  | .saveQIToR _ aa => some (.reg aa, .qword)
  | .saveBRToI _ addr => some (.imm .qword addr, .byte)
  | .saveWRToI _ addr => some (.imm .qword addr, .word)
  | .saveDRToI _ addr => some (.imm .qword addr, .dword)
  | .saveQRToI _ addr => some (.imm .qword addr, .qword)
  | .saveBIToI _ addr => some (.imm .qword addr, .byte)
  | .saveWIToI _ addr => some (.imm .qword addr, .word)
  | .saveDIToI _ addr => some (.imm .qword addr, .dword)
  | .saveQIToI _ addr => some (.imm .qword addr, .qword)
  | .loadBRToR _ _ => none
  | .loadWRToR _ _ => none
  | .loadDRToR _ _ => none
  | .loadQRToR _ _ => none
  | .loadBIToR _ _ => none
  | .loadWIToR _ _ => none
  | .loadDIToR _ _ => none
  | .loadQIToR _ _ => none
  | .inc => none
  | .dec => none

/-- The address operand and the width of a Load; no other instruction reads memory in its execute phase (20_memory.md R136). -/
def loadOperand : Instr → Option (Operand × Width)
  | .movBRToR _ _ => none
  | .movWRToR _ _ => none
  | .movDRToR _ _ => none
  | .movR _ _ => none
  | .movBIToR _ _ => none
  | .movWIToR _ _ => none
  | .movDIToR _ _ => none
  | .movI _ _ => none
  | .saveBRToR _ _ => none
  | .saveWRToR _ _ => none
  | .saveDRToR _ _ => none
  | .saveQRToR _ _ => none
  | .saveBIToR _ _ => none
  | .saveWIToR _ _ => none
  | .saveDIToR _ _ => none
  | .saveQIToR _ _ => none
  | .saveBRToI _ _ => none
  | .saveWRToI _ _ => none
  | .saveDRToI _ _ => none
  | .saveQRToI _ _ => none
  | .saveBIToI _ _ => none
  | .saveWIToI _ _ => none
  | .saveDIToI _ _ => none
  | .saveQIToI _ _ => none
  | .loadBRToR aa _ => some (.reg aa, .byte)
  | .loadWRToR aa _ => some (.reg aa, .word)
  | .loadDRToR aa _ => some (.reg aa, .dword)
  | .loadQRToR aa _ => some (.reg aa, .qword)
  | .loadBIToR addr _ => some (.imm .qword addr, .byte)
  | .loadWIToR addr _ => some (.imm .qword addr, .word)
  | .loadDIToR addr _ => some (.imm .qword addr, .dword)
  | .loadQIToR addr _ => some (.imm .qword addr, .qword)
  | .inc => none
  | .dec => none

/-- Two states of one session that differ at most in registers and memory. -/
abbrev State.SameSession (s t : State) : Prop :=
  t.runState = s.runState ∧ t.fault = s.fault ∧ t.capacity = s.capacity ∧ t.strictRegs = s.strictRegs

/-- The register file answers for a code: it names a register (0x00 to 0x10) or the session is tolerant (10_state.md R117). -/
abbrev State.Answers (s : State) (c : Byte) : Prop := c.toNat ≤ 0x10 ∨ s.strictRegs = false

/-- A state that holds `v` in the `w.bytes` bytes from `addr`, least significant byte lowest, and is `s` in every other
byte, in every register and in everything else (42_save.md R198, 20_memory.md R139). -/
def State.Stored (s : State) (w : Width) (addr v : Qword) (t : State) : Prop :=
  (∀ k < w.bytes, t.mem.byteAt (addr.toNat + k) = v.extractLsb' (8 * k) 8) ∧
  (∀ x, x < addr.toNat ∨ addr.toNat + w.bytes ≤ x → t.mem.byteAt x = s.mem.byteAt x) ∧
  (∀ n, t.reg n = s.reg n) ∧ s.SameSession t

/-- The value of the `w.bytes` bytes from `addr`: the sum of `Mem[addr+k] * 2^(8k)` (20_memory.md R138). -/
def State.loaded (s : State) (w : Width) (addr : Qword) : Nat :=
  ∑ k ∈ Finset.range w.bytes, (s.mem.byteAt (addr.toNat + k)).toNat * 2 ^ (8 * k)

/-- The number of bytes of an instruction (30_encoding.md R159). -/
def instrLength (i : Instr) : Nat := (encode i).length

/-- The bytes of an instruction stand at the program counter, all below the capacity (30_encoding.md R171). -/
def State.InstrAt (s : State) (i : Instr) : Prop :=
  s.pc.toNat + instrLength i ≤ s.capacity ∧ s.mem.bytesFrom s.pc.toNat (instrLength i) = encode i

end Sys2Proof.Machine
end

