-- ==== Sys2Proof/Certificates/Slice0/Obligations.lean ====
section
/-!
DEFINITION. The statements for the provers. Each docstring says which words of the spec it formalises; a clause that rests on a
decision of the spec or a choice of the model names its log entry.
-/

open Sys2Proof Sys2Proof.Machine

namespace Sys2Proof.Machine

/-- The loop of the spec's `Decode(a)` over the operand kinds of a shape, each operand a `MemRead` at the address reached so
far (30_encoding.md R170). -/
def specReadOperands (s : State) : List OperandKind → Qword → Except Fault (List Operand × Qword)
  | [], p => .ok ([], p)
  | .reg :: ks, p =>
    match memRead s p .byte with
    | .error f => .error f
    | .ok b =>
      match specReadOperands s ks (p + 1) with
      | .error f => .error f
      | .ok (ops, q) => .ok (.reg (b.setWidth 8) :: ops, q)
  | .imm w :: ks, p =>
    match memRead s p w with
    | .error f => .error f
    | .ok v =>
      match specReadOperands s ks (p + BitVec.ofNat 64 w.bytes) with
      | .error f => .error f
      | .ok (ops, q) => .ok (.imm w v :: ops, q)

/-- The spec's `Decode(a)`, written from its pseudocode: the opcode, its operands and the advanced address
(30_encoding.md R170). -/
def specDecode (s : State) (a : Qword) : Except Fault (Mnemonic × List Operand × Qword) :=
  match memRead s a .byte with
  | .error f => .error f
  | .ok op =>
    if 0x21 < op.toNat then .error .unknownOpcode
    else
      match opcodeTable[op.toNat]? with
      | none => .error .unknownOpcode
      | some r =>
        match specReadOperands s r.format.shape (a + 1) with
        | .error f => .error f
        | .ok (ops, p) => .ok (r.mnemonic, ops, p)

end Sys2Proof.Machine

/-- For every code: up to 0x10 a read gives the full value of the one register with that code, and a write replaces all 64
bits of that register and changes no other register, no memory and nothing else; above 0x10 a strict session raises
InvalidRegisterCode for both, and a tolerant session reads 0 and writes nothing. Formalises R115, R116. -/
def Obligations.RegisterFileReadsAndWrites : Prop :=
  ∀ (s : State) (c : Byte) (v : Qword),
    (c.toNat ≤ 0x10 → ∃ n t, RegName.code n = c ∧ regGet s c = .ok (s.reg n) ∧ regSet s c v = .ok t ∧
      t.reg n = v ∧ (∀ n', n' ≠ n → t.reg n' = s.reg n') ∧ t.mem = s.mem ∧ s.SameSession t) ∧
    (0x10 < c.toNat → s.strictRegs = true →
      regGet s c = .error .invalidRegisterCode ∧ regSet s c v = .error .invalidRegisterCode) ∧
    (0x10 < c.toNat → s.strictRegs = false → regGet s c = .ok 0 ∧ regSet s c v = .ok s)

/-- Where the register file answers for a code, RegGet gives codeValue and RegSet gives setCode. For the code of a
register, codeValue is that register and setCode overwrites it alone. For a code above 0x10 codeValue is 0 and setCode
changes nothing. The later statements use these two functions. -/
def Obligations.RegisterFileInTotalForm : Prop :=
  ∀ (s : State) (c : Byte) (v : Qword),
    (s.Answers c → regGet s c = .ok (s.codeValue c) ∧ regSet s c v = .ok (s.setCode c v)) ∧
    (∀ n, RegName.code n = c → s.codeValue c = s.reg n ∧ s.setCode c v = s.setReg n v) ∧
    (∀ n n', (s.setReg n v).reg n' = if n' = n then v else s.reg n') ∧
    (0x10 < c.toNat → s.codeValue c = 0 ∧ s.setCode c v = s)

/-- For every width, bit i of the merged value is bit i of the new value below 8n and of the old value from 8n up; for a
value of 8n bits it equals (old AND NOT (2^(8n) - 1)) OR v. RegMergeLow writes that value to a register the code
names; with a code above 0x10 it has no effect in tolerant mode and raises InvalidRegisterCode in strict mode. A
register holding 0x1122334455667788 holds 0x11223344556677AB after a byte merge of 0xAB. Formalises R118. -/
def Obligations.NarrowWriteKeepsHighBytes : Prop :=
  ∀ (s : State) (c : Byte) (w : Width) (old v : Qword),
    (∀ i, (mergeLow w old v).getLsbD i = if i < 8 * w.bytes then v.getLsbD i else old.getLsbD i) ∧
    (v.toNat < 2 ^ (8 * w.bytes) →
      mergeLow w old v = (old &&& ~~~(BitVec.ofNat 64 (2 ^ (8 * w.bytes) - 1))) ||| v) ∧
    (c.toNat ≤ 0x10 → ∃ n, RegName.code n = c ∧ regMergeLow s c w v = .ok (s.setReg n (mergeLow w (s.reg n) v))) ∧
    (0x10 < c.toNat → s.strictRegs = false → regMergeLow s c w v = .ok s) ∧
    (0x10 < c.toNat → s.strictRegs = true → regMergeLow s c w v = .error .invalidRegisterCode) ∧
    mergeLow .byte 0x1122334455667788 0xAB = 0x11223344556677AB

/-- A typed read whose full width lies below the capacity gives the sum over k below n of Mem[addr+k] * 2^(8k), a value of
8n bits; any other raises OutOfBounds. Formalises R138. -/
def Obligations.TypedReadIsLittleEndianSum : Prop :=
  ∀ (s : State) (addr : Qword) (w : Width),
    (addr.toNat + w.bytes ≤ s.capacity →
      ∃ v, memRead s addr w = .ok v ∧
        v.toNat = ∑ k ∈ Finset.range w.bytes, (s.mem.byteAt (addr.toNat + k)).toNat * 2 ^ (8 * k) ∧
        v.toNat < 2 ^ (8 * w.bytes)) ∧
    (s.capacity < addr.toNat + w.bytes → memRead s addr w = .error .outOfBounds)

/-- A typed write whose full width lies below the capacity puts byte k of the value at addr + k for k below n and changes
no other byte, no register and nothing else; any other raises OutOfBounds. Formalises R139. -/
def Obligations.TypedWriteStoresItsBytesOnly : Prop :=
  ∀ (s : State) (addr : Qword) (w : Width) (v : Qword),
    (addr.toNat + w.bytes ≤ s.capacity →
      ∃ t, memWrite s addr w v = .ok t ∧
        (∀ k < w.bytes, t.mem.byteAt (addr.toNat + k) = v.extractLsb' (8 * k) 8) ∧
        (∀ x, x < addr.toNat ∨ addr.toNat + w.bytes ≤ x → t.mem.byteAt x = s.mem.byteAt x) ∧
        (∀ n, t.reg n = s.reg n) ∧ s.SameSession t) ∧
    (s.capacity < addr.toNat + w.bytes → memWrite s addr w v = .error .outOfBounds)

/-- For every width, every in-bounds address and every value of that width, reading after writing returns the value.
Formalises R141. -/
def Obligations.TypedWriteThenReadReturnsTheValue : Prop :=
  ∀ (s : State) (addr : Qword) (w : Width) (v : Qword),
    addr.toNat + w.bytes ≤ s.capacity → v.toNat < 2 ^ (8 * w.bytes) →
    ∃ t, memWrite s addr w v = .ok t ∧ memRead t addr w = .ok v

/-- After MemWrite(a, 8, v), MemRead(a+k, 1) is byte k of v, MemRead(a, 4) = v[31:0] and MemRead(a+4, 4) = v[63:32]: one
byte order for all widths. -/
def Obligations.NarrowerReadsSeeTheSameBytes : Prop :=
  ∀ (s t : State) (a v : Qword), s.CapacityInRange → memWrite s a .qword v = .ok t →
    (∀ k < 8, memRead t (a + BitVec.ofNat 64 k) .byte = .ok ((v.extractLsb' (8 * k) 8).setWidth 64)) ∧
    memRead t a .dword = .ok ((v.extractLsb' 0 32).setWidth 64) ∧
    memRead t (a + 4) .dword = .ok ((v.extractLsb' 32 32).setWidth 64)

/-- A typed access that does not lie below the capacity for its full width raises OutOfBounds. A Save whose operands
resolve and whose span does not fit ends in Error with OutOfBounds, every byte of memory and every register as before,
also the bytes that would have been in bounds. A Load whose address resolves and whose span does not fit does the
same, with no value written. That every register, ProgramCounter among them, is as the execute phase found it is the
decision D6 of the spec (log 6). -/
def Obligations.OutOfBoundsAccessTransfersNothing : Prop :=
  ∀ (s : State) (i : Instr) (op : Operand) (w : Width) (a v : Qword), s.capacity < a.toNat + w.bytes →
    memRead s a w = .error .outOfBounds ∧ memWrite s a w v = .error .outOfBounds ∧
    (storeOperand i = some (op, w) → (∀ c, .reg c ∈ i.operands → s.Answers c) → addrValue s op = .ok a →
      ∃ t, exec i s = .next t ∧ t.fault = some .outOfBounds ∧ t.runState = .error ∧
        (∀ x, t.mem.byteAt x = s.mem.byteAt x) ∧ ∀ n, t.reg n = s.reg n) ∧
    (loadOperand i = some (op, w) → addrValue s op = .ok a →
      ∃ t, exec i s = .next t ∧ t.fault = some .outOfBounds ∧ t.runState = .error ∧
        (∀ x, t.mem.byteAt x = s.mem.byteAt x) ∧ ∀ n, t.reg n = s.reg n)

/-- An image longer than the capacity raises ImageTooLarge. Any other is copied to C - L .. C - 1 and to no other byte,
the offset C - L is the answer, no register changes; a new session writes that offset into ProgramStartLocation and
ProgramCounter. L = C and L = 0 are included. Formalises R154. -/
def Obligations.ImageLoadsAtTheTop : Prop :=
  ∀ (s : State) (image : List Byte),
    (s.capacity < image.length → loadBootImage s image = .error .imageTooLarge) ∧
    (image.length ≤ s.capacity →
      ∃ t, loadBootImage s image = .ok (t, s.capacity - image.length) ∧
        (∀ i < image.length, image[i]? = some (t.mem.byteAt (s.capacity - image.length + i))) ∧
        (∀ x, x < s.capacity - image.length ∨ s.capacity ≤ x → t.mem.byteAt x = s.mem.byteAt x) ∧
        (∀ n, t.reg n = s.reg n) ∧ s.SameSession t) ∧
    (∀ C strict, image.length ≤ C → C < 2 ^ 64 →
      ∃ t, newSession image (some C) strict = .next t ∧
        t.reg .programStartLocation = BitVec.ofNat 64 (C - image.length) ∧
        t.reg .programCounter = BitVec.ofNat 64 (C - image.length))

/-- With an explicit capacity below the image length the new session is in Error with ImageTooLarge and no memory listed;
a step or a run of any budget only surfaces that fault. With the default capacity no new session has a fault. No step
of a running session raises ImageTooLarge. That a step of a session in Error answers its fault is a choice of the
model (log 19, log 23). -/
def Obligations.OversizedImageNeverStarts : Prop :=
  (∀ (image : List Byte) (C : Nat) (strict : Bool), C < image.length → image.length < 2 ^ 64 →
    ∃ t, newSession image (some C) strict = .next t ∧ t.runState = .error ∧ t.fault = some .imageTooLarge ∧
      t.mem = [] ∧ step t = .fault .imageTooLarge ∧ ∀ k, runSession k t = .fault .imageTooLarge) ∧
  (∀ (image : List Byte) (strict : Bool) (t : State), newSession image none strict = .next t → t.fault = none) ∧
  (∀ (s t : State), s.runState = .running → s.fault ≠ some .imageTooLarge → step s = .next t →
    t.fault ≠ some .imageTooLarge)

/-- A session whose image fits starts in Ready with no fault, ProgramStartLocation and ProgramCounter at C - L, every
other register 0, the image at C - L and 0 below it. The zeros are the decisions D4 and D5 of the spec (log 4, log 5). -/
def Obligations.NewSessionState : Prop :=
  ∀ (image : List Byte) (capacity : Option Nat) (strict : Bool) (C : Nat),
    C = capacity.getD (image.length + 20) → C < 2 ^ 64 → image.length ≤ C →
    ∃ t, newSession image capacity strict = .next t ∧ t.runState = .ready ∧ t.fault = none ∧ t.capacity = C ∧
      t.strictRegs = strict ∧
      (∀ n, t.reg n = if n = .programStartLocation ∨ n = .programCounter then BitVec.ofNat 64 (C - image.length) else 0) ∧
      (∀ i < image.length, image[i]? = some (t.mem.byteAt (C - image.length + i))) ∧
      (∀ x, x < C - image.length → t.mem.byteAt x = 0)

/-- State.reset is what new answers for the empty image with no capacity and no strict mode. That reset stands for this
session is the choice of the model (log 21); the zeros in it are the decisions D4 and D5 of the spec (log 4, log 5). -/
def Obligations.ResetIsTheEmptyImageSession : Prop :=
  newSession [] none false = .next State.reset ∧ Sys2Proof.core.reset = State.reset

/-- In Ready a preset overwrites the register named, or a byte below the capacity, and nothing else, in strict mode too.
Outside Ready every preset is refused, and so is an address at or above the capacity. That the host may preset is the
decision D17 of the spec (log 16). -/
def Obligations.HostPresetsOnlyInReady : Prop :=
  ∀ (s : State) (n : RegName) (v : Qword) (a : Nat) (b : Byte),
    (s.runState = .ready →
      (∃ t, presetReg n v s = .next t ∧ (∀ n', t.reg n' = if n' = n then v else s.reg n') ∧ t.mem = s.mem ∧
        s.SameSession t) ∧
      (a < s.capacity → ∃ t, presetByte a b s = .next t ∧
        (∀ x, t.mem.byteAt x = if x = a then b else s.mem.byteAt x) ∧ t.regs = s.regs ∧ s.SameSession t) ∧
      (s.capacity ≤ a → presetByte a b s = .refused .noSuchAddress)) ∧
    (s.runState ≠ .ready →
      presetReg n v s = .refused .sessionNotReady ∧ presetByte a b s = .refused .sessionNotReady)

/-- Outside Running the inspector gives the register of a code up to 0x10 and the byte of an address below the capacity; a
higher code or address is refused (decision D20, log 18), and in Running everything is. -/
def Obligations.InspectorReadsOutsideRunning : Prop :=
  ∀ (s : State) (c : Byte) (a : Nat),
    (s.runState ≠ .running →
      (∀ n, RegName.code n = c → inspectReg c s = .ok (s.reg n)) ∧
      (0x10 < c.toNat → inspectReg c s = .error .noSuchRegister) ∧
      (a < s.capacity → inspectByte a s = .ok (s.mem.byteAt a)) ∧
      (s.capacity ≤ a → inspectByte a s = .error .noSuchAddress)) ∧
    (s.runState = .running →
      inspectReg c s = .error .sessionRunning ∧ inspectByte a s = .error .sessionRunning)

/-- set_flag makes bit b of Flags 1, clear_flag makes it 0, is_flag_set tests it; every other bit of Flags, bits 63:8
among them, every other register and memory stay. That the argument is a bit index is the decision D9 of the spec (log
9). -/
def Obligations.FlagHelpersTouchOneLowBit : Prop :=
  ∀ (s : State) (b : Fin 8),
    (∀ i < 64, ((setFlag s b).reg .flags).getLsbD i = if i = b.val then true else (s.reg .flags).getLsbD i) ∧
    (∀ i < 64, ((clearFlag s b).reg .flags).getLsbD i = if i = b.val then false else (s.reg .flags).getLsbD i) ∧
    (isFlagSet s b = true ↔ (s.reg .flags).getLsbD b.val = true) ∧
    (∀ n, n ≠ .flags → (setFlag s b).reg n = s.reg n ∧ (clearFlag s b).reg n = s.reg n) ∧
    (setFlag s b).mem = s.mem ∧ (clearFlag s b).mem = s.mem

/-- Wherever the register file answers for both codes, each answers the next state in which the low 1, 2 or 4 bytes of the
destination are those of the source and the rest of the destination is kept; a destination code above 0x10 (tolerant)
writes nothing. That the low-order bytes of the source are taken is the decision D13 of the spec (log 13). -/
def Obligations.NarrowMoveFromRegister : Prop :=
  ∀ (s : State) (ss dd : Byte), s.Answers ss → s.Answers dd →
    exec (.movBRToR ss dd) s = .next (s.setCode dd (mergeLow .byte (s.codeValue dd) (s.codeValue ss))) ∧
    exec (.movWRToR ss dd) s = .next (s.setCode dd (mergeLow .word (s.codeValue dd) (s.codeValue ss))) ∧
    exec (.movDRToR ss dd) s = .next (s.setCode dd (mergeLow .dword (s.codeValue dd) (s.codeValue ss)))

/-- Wherever the register file answers for the destination code, each answers the next state in which the low 1, 2 or 4
bytes of the destination are the immediate and the rest is kept; a destination code above 0x10 (tolerant) writes
nothing. -/
def Obligations.NarrowMoveFromImmediate : Prop :=
  ∀ (s : State) (imm8 : BitVec 8) (imm16 : BitVec 16) (imm32 : BitVec 32) (dd : Byte), s.Answers dd →
    exec (.movBIToR imm8 dd) s = .next (s.setCode dd (mergeLow .byte (s.codeValue dd) (imm8.setWidth 64))) ∧
    exec (.movWIToR imm16 dd) s = .next (s.setCode dd (mergeLow .word (s.codeValue dd) (imm16.setWidth 64))) ∧
    exec (.movDIToR imm32 dd) s = .next (s.setCode dd (mergeLow .dword (s.codeValue dd) (imm32.setWidth 64)))

/-- Wherever the register file answers for the codes, MovR and MovI answer the next state in which the destination holds
the whole source (register or immediate); with destination 0x10 the program counter is that value. Formalises R188. -/
def Obligations.QwordMoveReplacesTheRegister : Prop :=
  ∀ (s : State) (ss dd : Byte) (imm : Qword), s.Answers dd →
    (s.Answers ss → exec (.movR ss dd) s = .next (s.setCode dd (s.codeValue ss))) ∧
    exec (.movI imm dd) s = .next (s.setCode dd imm) ∧
    (dd = 0x10 → (s.setCode dd imm).pc = imm) ∧
    (dd.toNat ≤ 0x10 → (s.setCode dd imm).codeValue dd = imm)

/-- SaveBRToR, SaveWRToR, SaveDRToR, SaveQRToR: where the register file answers for the codes and the span of the width
lies below the capacity, each answers the next state in which the 1, 2, 4 or 8 low bytes of the source stand at the
address, least significant lowest, and every other byte of memory, every register and everything else is unchanged.
That the low-order bytes of a register are taken is the decision D13 of the spec (log 13). -/
def Obligations.SaveRegisterAtRegisterAddress : Prop :=
  ∀ (s : State) (ss : Byte) (aa : Byte), s.Answers ss → s.Answers aa →
    ((s.codeValue aa).toNat + 1 ≤ s.capacity →
      ∃ t, exec (.saveBRToR ss aa) s = .next t ∧ s.Stored .byte (s.codeValue aa) (s.codeValue ss) t) ∧
    ((s.codeValue aa).toNat + 2 ≤ s.capacity →
      ∃ t, exec (.saveWRToR ss aa) s = .next t ∧ s.Stored .word (s.codeValue aa) (s.codeValue ss) t) ∧
    ((s.codeValue aa).toNat + 4 ≤ s.capacity →
      ∃ t, exec (.saveDRToR ss aa) s = .next t ∧ s.Stored .dword (s.codeValue aa) (s.codeValue ss) t) ∧
    ((s.codeValue aa).toNat + 8 ≤ s.capacity →
      ∃ t, exec (.saveQRToR ss aa) s = .next t ∧ s.Stored .qword (s.codeValue aa) (s.codeValue ss) t)

/-- SaveBIToR, SaveWIToR, SaveDIToR, SaveQIToR: where the register file answers for the codes and the span of the width
lies below the capacity, each answers the next state in which the 1, 2, 4 or 8 low bytes of the source stand at the
address, least significant lowest, and every other byte of memory, every register and everything else is unchanged. -/
def Obligations.SaveImmediateAtRegisterAddress : Prop :=
  ∀ (s : State) (imm8 : BitVec 8) (imm16 : BitVec 16) (imm32 : BitVec 32) (imm64 : Qword) (aa : Byte), s.Answers aa →
    ((s.codeValue aa).toNat + 1 ≤ s.capacity →
      ∃ t, exec (.saveBIToR imm8 aa) s = .next t ∧ s.Stored .byte (s.codeValue aa) (imm8.setWidth 64) t) ∧
    ((s.codeValue aa).toNat + 2 ≤ s.capacity →
      ∃ t, exec (.saveWIToR imm16 aa) s = .next t ∧ s.Stored .word (s.codeValue aa) (imm16.setWidth 64) t) ∧
    ((s.codeValue aa).toNat + 4 ≤ s.capacity →
      ∃ t, exec (.saveDIToR imm32 aa) s = .next t ∧ s.Stored .dword (s.codeValue aa) (imm32.setWidth 64) t) ∧
    ((s.codeValue aa).toNat + 8 ≤ s.capacity →
      ∃ t, exec (.saveQIToR imm64 aa) s = .next t ∧ s.Stored .qword (s.codeValue aa) imm64 t)

/-- SaveBRToI, SaveWRToI, SaveDRToI, SaveQRToI: where the register file answers for the codes and the span of the width
lies below the capacity, each answers the next state in which the 1, 2, 4 or 8 low bytes of the source stand at the
address, least significant lowest, and every other byte of memory, every register and everything else is unchanged.
That the low-order bytes of a register are taken is the decision D13 of the spec (log 13). -/
def Obligations.SaveRegisterAtImmediateAddress : Prop :=
  ∀ (s : State) (ss : Byte) (addr : Qword), s.Answers ss →
    (addr.toNat + 1 ≤ s.capacity →
      ∃ t, exec (.saveBRToI ss addr) s = .next t ∧ s.Stored .byte addr (s.codeValue ss) t) ∧
    (addr.toNat + 2 ≤ s.capacity →
      ∃ t, exec (.saveWRToI ss addr) s = .next t ∧ s.Stored .word addr (s.codeValue ss) t) ∧
    (addr.toNat + 4 ≤ s.capacity →
      ∃ t, exec (.saveDRToI ss addr) s = .next t ∧ s.Stored .dword addr (s.codeValue ss) t) ∧
    (addr.toNat + 8 ≤ s.capacity →
      ∃ t, exec (.saveQRToI ss addr) s = .next t ∧ s.Stored .qword addr (s.codeValue ss) t)

/-- SaveBIToI, SaveWIToI, SaveDIToI, SaveQIToI: where the register file answers for the codes and the span of the width
lies below the capacity, each answers the next state in which the 1, 2, 4 or 8 low bytes of the source stand at the
address, least significant lowest, and every other byte of memory, every register and everything else is unchanged. -/
def Obligations.SaveImmediateAtImmediateAddress : Prop :=
  ∀ (s : State) (imm8 : BitVec 8) (imm16 : BitVec 16) (imm32 : BitVec 32) (imm64 : Qword) (addr : Qword),
    (addr.toNat + 1 ≤ s.capacity →
      ∃ t, exec (.saveBIToI imm8 addr) s = .next t ∧ s.Stored .byte addr (imm8.setWidth 64) t) ∧
    (addr.toNat + 2 ≤ s.capacity →
      ∃ t, exec (.saveWIToI imm16 addr) s = .next t ∧ s.Stored .word addr (imm16.setWidth 64) t) ∧
    (addr.toNat + 4 ≤ s.capacity →
      ∃ t, exec (.saveDIToI imm32 addr) s = .next t ∧ s.Stored .dword addr (imm32.setWidth 64) t) ∧
    (addr.toNat + 8 ≤ s.capacity →
      ∃ t, exec (.saveQIToI imm64 addr) s = .next t ∧ s.Stored .qword addr imm64 t)

/-- LoadBRToR, LoadWRToR, LoadDRToR, LoadQRToR, LoadBIToR, LoadWIToR, LoadDIToR, LoadQIToR: for codes that name registers
and a span below the capacity, each answers the next state in which the destination holds the little-endian value of
the n bytes, which is below 2^(8n), so every higher bit is 0; that write is the only change, so memory, every other
register (the address register unless it is the destination) and every flag are kept. A LoadB of 0xAB gives
0x00000000000000AB. Formalises R217. -/
def Obligations.LoadReplacesTheWholeRegister : Prop :=
  ∀ (s : State) (aa dd : Byte) (addr : Qword), aa.toNat ≤ 0x10 → dd.toNat ≤ 0x10 →
    ((s.codeValue aa).toNat + 1 ≤ s.capacity →
      exec (.loadBRToR aa dd) s = .next (s.setCode dd (BitVec.ofNat 64 (s.loaded .byte (s.codeValue aa))))) ∧
    ((s.codeValue aa).toNat + 2 ≤ s.capacity →
      exec (.loadWRToR aa dd) s = .next (s.setCode dd (BitVec.ofNat 64 (s.loaded .word (s.codeValue aa))))) ∧
    ((s.codeValue aa).toNat + 4 ≤ s.capacity →
      exec (.loadDRToR aa dd) s = .next (s.setCode dd (BitVec.ofNat 64 (s.loaded .dword (s.codeValue aa))))) ∧
    ((s.codeValue aa).toNat + 8 ≤ s.capacity →
      exec (.loadQRToR aa dd) s = .next (s.setCode dd (BitVec.ofNat 64 (s.loaded .qword (s.codeValue aa))))) ∧
    (addr.toNat + 1 ≤ s.capacity →
      exec (.loadBIToR addr dd) s = .next (s.setCode dd (BitVec.ofNat 64 (s.loaded .byte addr)))) ∧
    (addr.toNat + 2 ≤ s.capacity →
      exec (.loadWIToR addr dd) s = .next (s.setCode dd (BitVec.ofNat 64 (s.loaded .word addr)))) ∧
    (addr.toNat + 4 ≤ s.capacity →
      exec (.loadDIToR addr dd) s = .next (s.setCode dd (BitVec.ofNat 64 (s.loaded .dword addr)))) ∧
    (addr.toNat + 8 ≤ s.capacity →
      exec (.loadQIToR addr dd) s = .next (s.setCode dd (BitVec.ofNat 64 (s.loaded .qword addr)))) ∧
    (∀ w, s.loaded w addr < 2 ^ (8 * w.bytes)) ∧
    (∀ v : Qword, (s.setCode dd v).codeValue dd = v ∧ (∀ n, RegName.code n ≠ dd → (s.setCode dd v).reg n = s.reg n) ∧
      (s.setCode dd v).mem = s.mem) ∧
    (s.mem.byteAt addr.toNat = 0xAB → BitVec.ofNat 64 (s.loaded .byte addr) = 0x00000000000000AB#64)

/-- In every state Inc and Dec answer the next state in which RCOUNT is one more or one less modulo 2^64, and every other
register (Flags among them), memory and everything else is unchanged; no fault is possible. That no flag changes is
the decision D8 of the spec (log 8). -/
def Obligations.CounterInstructionsWrap : Prop :=
  ∀ s : State,
    (∃ t, exec .inc s = .next t ∧ (t.reg .rcount).toNat = ((s.reg .rcount).toNat + 1) % 2 ^ 64 ∧
      (∀ n, n ≠ .rcount → t.reg n = s.reg n) ∧ t.mem = s.mem ∧ s.SameSession t) ∧
    (∃ t, exec .dec s = .next t ∧ (t.reg .rcount).toNat = ((s.reg .rcount).toNat + (2 ^ 64 - 1)) % 2 ^ 64 ∧
      (∀ n, n ≠ .rcount → t.reg n = s.reg n) ∧ t.mem = s.mem ∧ s.SameSession t)

/-- Executing Inc and then Dec, or Dec and then Inc, gives back the state, for every value of RCOUNT. -/
def Obligations.IncAndDecUndoEachOther : Prop :=
  ∀ s t : State, (exec .inc s = .next t → exec .dec t = .next s) ∧ (exec .dec s = .next t → exec .inc t = .next s)

/-- In a tolerant session, for a code above 0x10: a register-source Move from it acts as the immediate-source Move of 0,
and any of the 8 Moves into it completes with the state unchanged. -/
def Obligations.TolerantMovesIgnoreUnknownCodes : Prop :=
  ∀ (s : State) (c ss dd : Byte) (imm8 : BitVec 8) (imm16 : BitVec 16) (imm32 : BitVec 32) (imm64 : Qword), s.strictRegs = false → 0x10 < c.toNat →
    exec (.movBRToR c dd) s = exec (.movBIToR 0 dd) s ∧
    exec (.movWRToR c dd) s = exec (.movWIToR 0 dd) s ∧
    exec (.movDRToR c dd) s = exec (.movDIToR 0 dd) s ∧
    exec (.movR c dd) s = exec (.movI 0 dd) s ∧
    (s.Answers ss → exec (.movBRToR ss c) s = .next s) ∧ exec (.movBIToR imm8 c) s = .next s ∧
    (s.Answers ss → exec (.movWRToR ss c) s = .next s) ∧ exec (.movWIToR imm16 c) s = .next s ∧
    (s.Answers ss → exec (.movDRToR ss c) s = .next s) ∧ exec (.movDIToR imm32 c) s = .next s ∧
    (s.Answers ss → exec (.movR ss c) s = .next s) ∧ exec (.movI imm64 c) s = .next s

/-- In a tolerant session, for a code above 0x10: a Save from it acts as the Save of the immediate 0, and a Save addressed
by it acts as the Save at the immediate address 0. That the store still happens is the decision D18 of the spec (log
17). -/
def Obligations.TolerantSavesIgnoreUnknownCodes : Prop :=
  ∀ (s : State) (c ss aa : Byte) (imm8 : BitVec 8) (imm16 : BitVec 16) (imm32 : BitVec 32) (imm64 : Qword) (addr : Qword), s.strictRegs = false → 0x10 < c.toNat →
    exec (.saveBRToR c aa) s = exec (.saveBIToR 0 aa) s ∧ exec (.saveBRToI c addr) s = exec (.saveBIToI 0 addr) s ∧
    exec (.saveBRToR ss c) s = exec (.saveBRToI ss 0) s ∧ exec (.saveBIToR imm8 c) s = exec (.saveBIToI imm8 0) s ∧
    exec (.saveWRToR c aa) s = exec (.saveWIToR 0 aa) s ∧ exec (.saveWRToI c addr) s = exec (.saveWIToI 0 addr) s ∧
    exec (.saveWRToR ss c) s = exec (.saveWRToI ss 0) s ∧ exec (.saveWIToR imm16 c) s = exec (.saveWIToI imm16 0) s ∧
    exec (.saveDRToR c aa) s = exec (.saveDIToR 0 aa) s ∧ exec (.saveDRToI c addr) s = exec (.saveDIToI 0 addr) s ∧
    exec (.saveDRToR ss c) s = exec (.saveDRToI ss 0) s ∧ exec (.saveDIToR imm32 c) s = exec (.saveDIToI imm32 0) s ∧
    exec (.saveQRToR c aa) s = exec (.saveQIToR 0 aa) s ∧ exec (.saveQRToI c addr) s = exec (.saveQIToI 0 addr) s ∧
    exec (.saveQRToR ss c) s = exec (.saveQRToI ss 0) s ∧ exec (.saveQIToR imm64 c) s = exec (.saveQIToI imm64 0) s

/-- In a tolerant session, for a code above 0x10: a Load addressed by it acts as the Load from the immediate address 0; a
Load into it completes with the state unchanged when its span lies below the capacity and raises OutOfBounds when it
does not. That the access still happens is the decision D18 of the spec (log 17). -/
def Obligations.TolerantLoadsIgnoreUnknownCodes : Prop :=
  ∀ (s : State) (c aa dd : Byte) (addr : Qword), s.strictRegs = false → 0x10 < c.toNat →
    exec (.loadBRToR c dd) s = exec (.loadBIToR 0 dd) s ∧
    (addr.toNat + 1 ≤ s.capacity → exec (.loadBIToR addr c) s = .next s) ∧
    (s.capacity < addr.toNat + 1 → exec (.loadBIToR addr c) s = .next (raiseFault .outOfBounds s)) ∧
    exec (.loadBRToR aa c) s = exec (.loadBIToR (s.codeValue aa) c) s ∧
    exec (.loadWRToR c dd) s = exec (.loadWIToR 0 dd) s ∧
    (addr.toNat + 2 ≤ s.capacity → exec (.loadWIToR addr c) s = .next s) ∧
    (s.capacity < addr.toNat + 2 → exec (.loadWIToR addr c) s = .next (raiseFault .outOfBounds s)) ∧
    exec (.loadWRToR aa c) s = exec (.loadWIToR (s.codeValue aa) c) s ∧
    exec (.loadDRToR c dd) s = exec (.loadDIToR 0 dd) s ∧
    (addr.toNat + 4 ≤ s.capacity → exec (.loadDIToR addr c) s = .next s) ∧
    (s.capacity < addr.toNat + 4 → exec (.loadDIToR addr c) s = .next (raiseFault .outOfBounds s)) ∧
    exec (.loadDRToR aa c) s = exec (.loadDIToR (s.codeValue aa) c) s ∧
    exec (.loadQRToR c dd) s = exec (.loadQIToR 0 dd) s ∧
    (addr.toNat + 8 ≤ s.capacity → exec (.loadQIToR addr c) s = .next s) ∧
    (s.capacity < addr.toNat + 8 → exec (.loadQIToR addr c) s = .next (raiseFault .outOfBounds s)) ∧
    exec (.loadQRToR aa c) s = exec (.loadQIToR (s.codeValue aa) c) s

/-- In a strict session, for a code above 0x10: every Move and Save that names it ends in Error with InvalidRegisterCode
and nothing else changed, whatever its other operand and whether or not its address is in bounds; so does a Load
addressed by it; a Load into it raises InvalidRegisterCode after an access that fits and OutOfBounds for one that does
not. Where the code is checked is the decision D10 of the spec (log 10), and the after-state its decision D6 (log 6). -/
def Obligations.StrictModeFaultsOnUnknownCodes : Prop :=
  ∀ (s : State) (c r : Byte) (imm8 : BitVec 8) (imm16 : BitVec 16) (imm32 : BitVec 32) (imm64 : Qword) (addr : Qword), s.strictRegs = true → 0x10 < c.toNat →
    exec (.movBRToR c r) s = .next (raiseFault .invalidRegisterCode s) ∧ exec (.movBRToR r c) s = .next (raiseFault .invalidRegisterCode s) ∧
    exec (.movBIToR imm8 c) s = .next (raiseFault .invalidRegisterCode s) ∧
    exec (.movWRToR c r) s = .next (raiseFault .invalidRegisterCode s) ∧ exec (.movWRToR r c) s = .next (raiseFault .invalidRegisterCode s) ∧
    exec (.movWIToR imm16 c) s = .next (raiseFault .invalidRegisterCode s) ∧
    exec (.movDRToR c r) s = .next (raiseFault .invalidRegisterCode s) ∧ exec (.movDRToR r c) s = .next (raiseFault .invalidRegisterCode s) ∧
    exec (.movDIToR imm32 c) s = .next (raiseFault .invalidRegisterCode s) ∧
    exec (.movR c r) s = .next (raiseFault .invalidRegisterCode s) ∧ exec (.movR r c) s = .next (raiseFault .invalidRegisterCode s) ∧
    exec (.movI imm64 c) s = .next (raiseFault .invalidRegisterCode s) ∧
    exec (.saveBRToR c r) s = .next (raiseFault .invalidRegisterCode s) ∧ exec (.saveBRToR r c) s = .next (raiseFault .invalidRegisterCode s) ∧
    exec (.saveBRToI c addr) s = .next (raiseFault .invalidRegisterCode s) ∧ exec (.saveBIToR imm8 c) s = .next (raiseFault .invalidRegisterCode s) ∧
    exec (.saveWRToR c r) s = .next (raiseFault .invalidRegisterCode s) ∧ exec (.saveWRToR r c) s = .next (raiseFault .invalidRegisterCode s) ∧
    exec (.saveWRToI c addr) s = .next (raiseFault .invalidRegisterCode s) ∧ exec (.saveWIToR imm16 c) s = .next (raiseFault .invalidRegisterCode s) ∧
    exec (.saveDRToR c r) s = .next (raiseFault .invalidRegisterCode s) ∧ exec (.saveDRToR r c) s = .next (raiseFault .invalidRegisterCode s) ∧
    exec (.saveDRToI c addr) s = .next (raiseFault .invalidRegisterCode s) ∧ exec (.saveDIToR imm32 c) s = .next (raiseFault .invalidRegisterCode s) ∧
    exec (.saveQRToR c r) s = .next (raiseFault .invalidRegisterCode s) ∧ exec (.saveQRToR r c) s = .next (raiseFault .invalidRegisterCode s) ∧
    exec (.saveQRToI c addr) s = .next (raiseFault .invalidRegisterCode s) ∧ exec (.saveQIToR imm64 c) s = .next (raiseFault .invalidRegisterCode s) ∧
    exec (.loadBRToR c r) s = .next (raiseFault .invalidRegisterCode s) ∧
    exec (.loadBIToR addr c) s = .next (raiseFault (if addr.toNat + 1 ≤ s.capacity then .invalidRegisterCode else .outOfBounds) s) ∧
    (r.toNat ≤ 0x10 → exec (.loadBRToR r c) s = exec (.loadBIToR (s.codeValue r) c) s) ∧
    exec (.loadWRToR c r) s = .next (raiseFault .invalidRegisterCode s) ∧
    exec (.loadWIToR addr c) s = .next (raiseFault (if addr.toNat + 2 ≤ s.capacity then .invalidRegisterCode else .outOfBounds) s) ∧
    (r.toNat ≤ 0x10 → exec (.loadWRToR r c) s = exec (.loadWIToR (s.codeValue r) c) s) ∧
    exec (.loadDRToR c r) s = .next (raiseFault .invalidRegisterCode s) ∧
    exec (.loadDIToR addr c) s = .next (raiseFault (if addr.toNat + 4 ≤ s.capacity then .invalidRegisterCode else .outOfBounds) s) ∧
    (r.toNat ≤ 0x10 → exec (.loadDRToR r c) s = exec (.loadDIToR (s.codeValue r) c) s) ∧
    exec (.loadQRToR c r) s = .next (raiseFault .invalidRegisterCode s) ∧
    exec (.loadQIToR addr c) s = .next (raiseFault (if addr.toNat + 8 ≤ s.capacity then .invalidRegisterCode else .outOfBounds) s) ∧
    (r.toNat ≤ 0x10 → exec (.loadQRToR r c) s = exec (.loadQIToR (s.codeValue r) c) s)

/-- MovBRToR, MovWRToR, MovDRToR, MovR, MovBIToR, MovWIToR, MovDIToR, MovI and the 8 Loads (the instructions with a
destination register, destCode): in any next state, a fault raised or not, every register but the destination (Flags,
the stack registers, ProgramStartLocation and RCOUNT among them) and every byte of memory are unchanged, and so are
the session parameters; the run state and the fault latch change only by a raised fault. That no flag changes as a
side effect is the decision D8 of the spec (log 8), and the after-state of a fault its decision D6 (log 6). -/
def Obligations.MoveAndLoadFrame : Prop :=
  ∀ (i : Instr) (s t : State) (dd : Byte), destCode i = some dd → exec i s = .next t →
    (∀ n, RegName.code n ≠ dd → t.reg n = s.reg n) ∧ (∀ x, t.mem.byteAt x = s.mem.byteAt x) ∧
    t.capacity = s.capacity ∧ t.strictRegs = s.strictRegs ∧
    ((t.runState = s.runState ∧ t.fault = s.fault) ∨ (t.runState = .error ∧ t.fault.isSome))

/-- For each of the 16 Saves (storeOperand gives its address operand and width): in any next state every register is
unchanged; for every address that AddrValue gives for the address operand, every byte outside the width stored there
reads as before; if AddrValue gives none, every byte does; a Save that raised a fault changed no byte; the session
parameters are unchanged. That no flag changes as a side effect is the decision D8 of the spec (log 8), and the after-
state of a fault its decision D6 (log 6). -/
def Obligations.SaveFrame : Prop :=
  ∀ (i : Instr) (s t : State) (dst : Operand) (w : Width), storeOperand i = some (dst, w) → exec i s = .next t →
    (∀ n, t.reg n = s.reg n) ∧
    (∀ a, addrValue s dst = .ok a →
      ∀ x, x < a.toNat ∨ a.toNat + w.bytes ≤ x → t.mem.byteAt x = s.mem.byteAt x) ∧
    (∀ f, addrValue s dst = .error f → ∀ x, t.mem.byteAt x = s.mem.byteAt x) ∧
    t.capacity = s.capacity ∧ t.strictRegs = s.strictRegs ∧
    ((t.runState = s.runState ∧ t.fault = s.fault) ∨
      (t.runState = .error ∧ t.fault.isSome ∧ ∀ x, t.mem.byteAt x = s.mem.byteAt x))

/-- If a step of a running session changes a register other than ProgramCounter, then it decoded an instruction whose
destination register is that one, or it is RCOUNT and the instruction is Inc or Dec. So no instruction changes Flags,
StackPointer, StackStart, StackEnd or ProgramStartLocation as a side effect; for Flags this is the decision D8 of the
spec (log 8). -/
def Obligations.RegistersChangeOnlyAsDestination : Prop :=
  ∀ (s t : State) (n : RegName), s.runState = .running → step s = .next t → n ≠ .programCounter → t.reg n ≠ s.reg n →
    ∃ i rest, decode s.fetchBytes = .instr i rest ∧
      (destCode i = some (RegName.code n) ∨ (n = .rcount ∧ (i = .inc ∨ i = .dec)))

/-- For every instruction, if a register is named by no operand (and is not RCOUNT of Inc or Dec), then executing from a
state that differs only in that register gives the same next state, differing only in that register: nothing of it
flows anywhere. In particular the execute phase never reads ProgramStartLocation, Flags or a stack register on its
own. That Inc and Dec leave Flags alone is the decision D8 of the spec (log 8). -/
def Obligations.UnnamedRegistersDoNotMatter : Prop :=
  ∀ (i : Instr) (s t : State) (n : RegName) (v : Qword), Operand.reg (RegName.code n) ∉ i.operands →
    (n = .rcount → i ≠ .inc ∧ i ≠ .dec) → exec i s = .next t →
    exec i (s.setReg n v) = .next (t.setReg n v) ∧ t.reg n = s.reg n

/-- When a running session has its program counter below the capacity and the bytes there decode to an instruction, the
step is exec of that instruction at the state whose program counter has moved past the bytes consumed; the instruction
is well formed. -/
def Obligations.StepExecutesTheDecodedInstruction : Prop :=
  ∀ (s : State) (i : Instr) (rest : List Byte), s.runState = .running → s.pc.toNat < s.capacity →
    decode s.fetchBytes = .instr i rest →
    i.wellFormed = true ∧
      step s = exec i (s.setReg .programCounter (s.pc + BitVec.ofNat 64 (s.fetchBytes.length - rest.length)))

/-- If the encoding of an instruction stands in memory at the program counter and lies below the capacity, a step of a
running session is exec of that instruction at the state whose program counter is advanced by its length. -/
def Obligations.StepRunsTheInstructionAtThePc : Prop :=
  ∀ (s : State) (i : Instr), s.runState = .running → s.InstrAt i →
    step s = exec i (s.setReg .programCounter (s.pc + BitVec.ofNat 64 (instrLength i)))

/-- A running session whose program counter, as an unsigned value, is at or above the capacity steps to Halted with every
register, every byte and the fault latch unchanged; one whose program counter is below it never steps to Halted. A
session of the empty image halts at the first check, executing nothing. Formalises R177. -/
def Obligations.HaltsExactlyAtTheCapacity : Prop :=
  (∀ s : State, s.runState = .running → s.capacity ≤ s.pc.toNat →
    ∃ t, step s = .next t ∧ t.runState = .halted ∧ t.regs = s.regs ∧ t.mem = s.mem ∧ t.fault = s.fault) ∧
  (∀ s t : State, s.runState = .running → s.pc.toNat < s.capacity → step s = .next t → t.runState ≠ .halted) ∧
  (∀ (capacity : Option Nat) (strict : Bool) (s : State), newSession [] capacity strict = .next s →
    s.pc.toNat = s.capacity ∧ runSession 1 s = .halted { s with runState := .halted })

/-- In a running session whose program counter is below the capacity, a byte there that is none of the opcodes of the
table makes the step the state with only the fault latch and the run state changed, to UnknownOpcode and Error; so all
17 registers, ProgramCounter included, and all of memory are unchanged; the next step answers that fault, and a run of
one step or more returns UnknownOpcode. A byte that is an opcode never raises UnknownOpcode. That the next step
answers the fault is a choice of the model (log 19, log 23). -/
def Obligations.UnknownOpcodeLeavesTheState : Prop :=
  ∀ s : State, s.runState = .running → s.pc.toNat < s.capacity →
    ((∀ r ∈ opcodeTable, r.opcode ≠ s.mem.byteAt s.pc.toNat) →
      step s = .next { s with fault := some .unknownOpcode, runState := .error } ∧
      step { s with fault := some .unknownOpcode, runState := .error } = .fault .unknownOpcode ∧
      ∀ k, runLoop (k + 1) s = .fault .unknownOpcode) ∧
    ((∃ r ∈ opcodeTable, r.opcode = s.mem.byteAt s.pc.toNat) → s.fault ≠ some .unknownOpcode →
      ∀ t, step s = .next t → t.fault ≠ some .unknownOpcode)

/-- In a running session whose program counter is below the capacity: if the byte there is an opcode whose instruction
would end past the capacity, the step ends in Error with OutOfBounds; if it would end at or below it, the bytes decode
to an instruction of that opcode; if the byte is no opcode, the step ends in Error with UnknownOpcode, also in the
last byte of memory. Formalises R171. -/
def Obligations.OperandsPastTheEndFault : Prop :=
  ∀ s : State, s.runState = .running → s.pc.toNat < s.capacity →
    (∀ r ∈ opcodeTable, r.opcode = s.mem.byteAt s.pc.toNat →
      (s.capacity < s.pc.toNat + r.format.length →
        ∃ t, step s = .next t ∧ t.fault = some .outOfBounds ∧ t.runState = .error) ∧
      (s.pc.toNat + r.format.length ≤ s.capacity →
        ∃ i rest, decode s.fetchBytes = .instr i rest ∧ i.mnemonic = r.mnemonic)) ∧
    ((∀ r ∈ opcodeTable, r.opcode ≠ s.mem.byteAt s.pc.toNat) →
      ∃ t, step s = .next t ∧ t.fault = some .unknownOpcode ∧ t.runState = .error)

/-- A halted session is refused a step, and one in Error answers its fault as the terminal result; neither has a next
state. The forms of the two answers are the choice of the model (log 19, log 23). -/
def Obligations.TerminalSessionsHaveNoStep : Prop :=
  ∀ s : State,
    (s.runState = .halted → step s = .refused .sessionHalted) ∧
    (∀ f, s.runState = .error → s.fault = some f → step s = .fault f) ∧
    (s.runState = .halted ∨ s.runState = .error → ∀ t, step s ≠ .next t)

/-- When a step of a running session ends in Error: memory and every register other than ProgramCounter are unchanged; the
fault is UnknownOpcode or a decode-phase OutOfBounds with ProgramCounter at pc0, or an execute-phase OutOfBounds or
InvalidRegisterCode with ProgramCounter past the decoded instruction; the next step surfaces it. The after-states are
the decision D6 of the spec (log 6); that the next step answers the fault is a choice of the model (log 19, log 23). -/
def Obligations.FaultsArePrecise : Prop :=
  ∀ s t : State, s.runState = .running → step s = .next t → t.runState = .error →
    t.mem = s.mem ∧ (∀ n, n ≠ .programCounter → t.reg n = s.reg n) ∧ t.capacity = s.capacity ∧
    t.strictRegs = s.strictRegs ∧
    ∃ f, t.fault = some f ∧ step t = .fault f ∧
      ((decode s.fetchBytes = .unknownOpcode ∧ f = .unknownOpcode ∧ t.pc = s.pc) ∨
       (decode s.fetchBytes = .truncated ∧ f = .outOfBounds ∧ t.pc = s.pc) ∨
       (∃ i rest, decode s.fetchBytes = .instr i rest ∧ (f = .outOfBounds ∨ f = .invalidRegisterCode) ∧
         t.pc = s.pc + BitVec.ofNat 64 (instrLength i)))

/-- In a session whose capacity is below 2^64, a step that decodes an instruction whose destination is not ProgramCounter
leaves ProgramCounter at pc0 plus the length of the instruction, as naturals, at most the capacity. -/
def Obligations.SequentialAdvance : Prop :=
  ∀ (s t : State) (i : Instr) (rest : List Byte), s.CapacityInRange → s.runState = .running →
    s.pc.toNat < s.capacity → decode s.fetchBytes = .instr i rest → destCode i ≠ some 0x10 → step s = .next t →
    t.pc.toNat = s.pc.toNat + instrLength i ∧ s.pc.toNat + instrLength i ≤ s.capacity

/-- A step of MovR ProgramCounter, dd leaves pc0 + 3 in dd; a step of MovBIToR, MovWIToR or MovDIToR into ProgramCounter
leaves its low 1, 2 or 4 bytes the immediate and the rest those of pc0 + 3, pc0 + 4 or pc0 + 6. This is the decision
D14 of the spec (log 14). -/
def Obligations.PcOperandIsTheNextAddress : Prop :=
  ∀ (s : State) (dd : Byte) (imm8 : BitVec 8) (imm16 : BitVec 16) (imm32 : BitVec 32), s.runState = .running →
    (s.InstrAt (.movR 0x10 dd) → dd.toNat ≤ 0x10 → ∃ t, step s = .next t ∧ t.codeValue dd = s.pc + 3) ∧
    (s.InstrAt (.movBIToR imm8 0x10) →
      ∃ t, step s = .next t ∧ t.pc = mergeLow .byte (s.pc + 3) (imm8.setWidth 64)) ∧
    (s.InstrAt (.movWIToR imm16 0x10) →
      ∃ t, step s = .next t ∧ t.pc = mergeLow .word (s.pc + 4) (imm16.setWidth 64)) ∧
    (s.InstrAt (.movDIToR imm32 0x10) →
      ∃ t, step s = .next t ∧ t.pc = mergeLow .dword (s.pc + 6) (imm32.setWidth 64))

/-- A step of SaveBIToR imm, ProgramCounter whose next address lies below the capacity stores the immediate at that
address, and the fetch of the next step begins with it; so if the immediate is 0x20, the opcode of Inc, the next step
executes Inc. That ProgramCounter reads as the next address is the decision D14 of the spec (log 14), and the opcode
0x20 is its decision D1 (log 1). -/
def Obligations.StoredByteIsFetchedNext : Prop :=
  ∀ (s : State) (imm : BitVec 8), s.CapacityInRange → s.runState = .running → s.InstrAt (.saveBIToR imm 0x10) →
    s.pc.toNat + 3 < s.capacity →
    ∃ t bs, step s = .next t ∧ t.pc = s.pc + 3 ∧ t.fetchBytes = imm :: bs ∧
      (imm = 0x20 → step t = exec .inc (t.setReg .programCounter (s.pc + 4)))

/-- A step on three zero bytes below the capacity answers the state with only ProgramCounter changed, by 3. It rests on
the opcode numbering, decision D1 of the spec (log 1). -/
def Obligations.ZeroBytesOnlyAdvance : Prop :=
  ∀ s : State, s.runState = .running → s.pc.toNat + 3 ≤ s.capacity → s.mem.bytesFrom s.pc.toNat 3 = [0, 0, 0] →
    step s = .next (s.setReg .programCounter (s.pc + 3))

/-- Every next state of a step has the capacity and the STRICT_REGS of the state before. That the parameters are held in
the state is the choice of the model (log 20). -/
def Obligations.SessionParametersNeverChange : Prop :=
  ∀ s t : State, step s = .next t → t.capacity = s.capacity ∧ t.strictRegs = s.strictRegs

/-- A step of a session in Ready answers Running with every other field unchanged; runSession refuses a session that is
Running or Halted. That starting the run is a step of its own is the choice of the model (log 22), and so is the
refusal of a run asked of a Running or a Halted session (log 29). -/
def Obligations.StartingARunChangesOnlyTheRunState : Prop :=
  ∀ (s : State) (k : Nat),
    (s.runState = .ready → step s = .next { s with runState := .running } ∧
      runSession k s = runLoop k { s with runState := .running }) ∧
    (s.runState = .running ∨ s.runState = .halted → runSession k s = .refused .sessionNotReady)

/-- If a run of k steps has halted with a final state, or ended with a fault, then a run of any larger budget gives the
same result. The budget is the choice the spec leaves to a model. That a run asked of a session which an earlier run
left in Error answers its fault is the choice of the model (log 29). -/
def Obligations.LongerBudgetSameResult : Prop :=
  ∀ (s t : State) (f : Fault) (k m : Nat),
    (runSession k s = .halted t → runSession (k + m) s = .halted t) ∧
    (runSession k s = .fault f → runSession (k + m) s = .fault f)

/-- Where the register file answers for the address code, each Save and Load with an address register acts as the form
with the immediate address that the register holds: no offset, index, scaling or update. -/
def Obligations.RegisterAddressActsAsItsValue : Prop :=
  ∀ (s : State) (ss aa dd : Byte) (imm8 : BitVec 8) (imm16 : BitVec 16) (imm32 : BitVec 32) (imm64 : Qword), s.Answers aa →
    exec (.saveBRToR ss aa) s = exec (.saveBRToI ss (s.codeValue aa)) s ∧
    exec (.saveBIToR imm8 aa) s = exec (.saveBIToI imm8 (s.codeValue aa)) s ∧
    exec (.loadBRToR aa dd) s = exec (.loadBIToR (s.codeValue aa) dd) s ∧
    exec (.saveWRToR ss aa) s = exec (.saveWRToI ss (s.codeValue aa)) s ∧
    exec (.saveWIToR imm16 aa) s = exec (.saveWIToI imm16 (s.codeValue aa)) s ∧
    exec (.loadWRToR aa dd) s = exec (.loadWIToR (s.codeValue aa) dd) s ∧
    exec (.saveDRToR ss aa) s = exec (.saveDRToI ss (s.codeValue aa)) s ∧
    exec (.saveDIToR imm32 aa) s = exec (.saveDIToI imm32 (s.codeValue aa)) s ∧
    exec (.loadDRToR aa dd) s = exec (.loadDIToR (s.codeValue aa) dd) s ∧
    exec (.saveQRToR ss aa) s = exec (.saveQRToI ss (s.codeValue aa)) s ∧
    exec (.saveQIToR imm64 aa) s = exec (.saveQIToI imm64 (s.codeValue aa)) s ∧
    exec (.loadQRToR aa dd) s = exec (.loadQIToR (s.codeValue aa) dd) s

/-- From every state in which memory is in canonical form and inside the capacity, the capacity is below 2^64 and the
fault latch is set exactly in Error, every next state of a step has the same properties. -/
def Obligations.StepKeepsTheInvariant : Prop :=
  ∀ s t : State, s.Inv → step s = .next t → t.Inv

/-- State.reset has canonical memory inside the capacity, a capacity below 2^64, and no fault outside Error. -/
def Obligations.ResetMeetsTheInvariant : Prop :=
  State.reset.Inv

/-- Whatever the image, the capacity and the policy, a session that new answers, in Ready or in Error, meets the
invariant, and so does the session after a preset. -/
def Obligations.NewSessionMeetsTheInvariant : Prop :=
  (∀ (image : List Byte) (capacity : Option Nat) (strict : Bool) (t : State),
    newSession image capacity strict = .next t → t.Inv) ∧
  (∀ (s t : State) (n : RegName) (v : Qword), s.Inv → presetReg n v s = .next t → t.Inv) ∧
  (∀ (s t : State) (a : Nat) (b : Byte), s.Inv → presetByte a b s = .next t → t.Inv)

/-- For every instruction, every value of every operand, and any bytes after it, the decoder reads the instruction from
its encoding and leaves those bytes; the encoding has the length of the format of its row. -/
def Obligations.DecodeOfEncode : Prop :=
  ∀ (i : Instr) (rest : List Byte), decode (encode i ++ rest) = .instr i rest ∧
    ∃ r ∈ opcodeTable, r.mnemonic = i.mnemonic ∧ instrLength i = r.format.length

/-- If bytes decode to an instruction with some bytes left, they are the encoding of that instruction followed by those
bytes: no byte of an instruction is ignored and each byte string has one meaning. -/
def Obligations.EncodeOfDecode : Prop :=
  ∀ (bs rest : List Byte) (i : Instr), decode bs = .instr i rest → encode i ++ rest = bs

/-- No two rows of the opcode table share an opcode byte or a mnemonic; the opcode bytes are exactly 0x00 to 0x21, in
order. The numbering is the decision D1 of the spec (log 1). -/
def Obligations.OpcodeTableHasNoOverlap : Prop :=
  opcodeTable.Pairwise (fun r r' => r.opcode ≠ r'.opcode ∧ r.mnemonic ≠ r'.mnemonic) ∧
  opcodeTable.map (fun r => r.opcode.toNat) = List.range 0x22

/-- One instruction of each family, written byte by byte as the spec encodes it: MovI 1, R0; SaveQIToR 9, StackPointer;
SaveDIToI 0xDEADBEEF, 0x10; LoadBRToR R2, R0; LoadQIToR 0x10, R0; Dec. The source gives the opcodes 0x07 and 0x0F
only; the other four are the decision D1 of the spec (log 1), the 8-byte addresses of SaveDIToI and LoadQIToR its
decision D2 (log 2), and the 4-byte data of SaveDIToI its decision D3 (log 3). -/
def Obligations.WrittenWordsDecode : Prop :=
  decode [0x07, 0x01, 0x00, 0x00, 0x00, 0x00, 0x00, 0x00, 0x00, 0x00] = .instr (.movI 1 0x00) [] ∧
  decode [0x0F, 0x09, 0x00, 0x00, 0x00, 0x00, 0x00, 0x00, 0x00, 0x0C] = .instr (.saveQIToR 9 0x0C) [] ∧
  decode [0x16, 0xEF, 0xBE, 0xAD, 0xDE, 0x10, 0x00, 0x00, 0x00, 0x00, 0x00, 0x00, 0x00] =
    .instr (.saveDIToI 0xDEADBEEF 0x10) [] ∧
  decode [0x18, 0x02, 0x00] = .instr (.loadBRToR 0x02 0x00) [] ∧
  decode [0x1F, 0x10, 0x00, 0x00, 0x00, 0x00, 0x00, 0x00, 0x00, 0x00] = .instr (.loadQIToR 0x10 0x00) [] ∧
  decode [0x21] = .instr .dec []

/-- For a session whose capacity is below 2^64 and whose program counter is below it, the fetch and decode of a step give
exactly what the Decode(a) procedure of the spec gives from the program counter: the same instruction and the same
next address, or UnknownOpcode, or OutOfBounds. The test op > 0x21 rests on the numbering, decision D1 of the spec
(log 1). -/
def Obligations.DecoderReadsOperandByOperand : Prop :=
  ∀ s : State, s.CapacityInRange → s.pc.toNat < s.capacity →
    specDecode s s.pc =
      match decode s.fetchBytes with
      | .instr i rest => .ok (i.mnemonic, i.operands, s.pc + BitVec.ofNat 64 (s.fetchBytes.length - rest.length))
      | .unknownOpcode => .error .unknownOpcode
      | .truncated => .error .outOfBounds

/-- For every state and every instruction given as a word numbered as the opcode table numbers it: the decoder reads that
instruction from the word, the placed state keeps every register but ProgramCounter, keeps ProgramCounter where the
longest instruction fits below 2^64, and its next step is exec of the instruction with ProgramCounter past it. How a
program comes to run is the choice of the model (log 22). -/
def Obligations.PlacedInstructionRunsNext : Prop :=
  ∀ (s : State) (i : Instr), let p := s.withFetchWord (8 * instrLength i) (joinLE (encode i))
    decodeTableWord (8 * instrLength i) (joinLE (encode i)) = some i ∧
    (∀ n, n ≠ .programCounter → p.reg n = s.reg n) ∧ (s.pc.toNat + 17 < 2 ^ 64 → p.pc = s.pc) ∧
    step p = exec i (p.setReg .programCounter (p.pc + BitVec.ofNat 64 (instrLength i)))
end

