-- ==== Sys2Proof/Laws/Bytes.lean ====
section
/-!
SUPPORT. Small lemmas of the byte and width operations.
-/

namespace Sys2Proof

@[simp] theorem Width.bytes_byte : Width.byte.bytes = 1 := rfl
@[simp] theorem Width.bytes_word : Width.word.bytes = 2 := rfl
@[simp] theorem Width.bytes_dword : Width.dword.bytes = 4 := rfl
@[simp] theorem Width.bytes_qword : Width.qword.bytes = 8 := rfl

theorem Width.bytes_pos (w : Width) : 0 < w.bytes := by cases w <;> decide
theorem Width.bytes_le (w : Width) : w.bytes ≤ 8 := by cases w <;> decide
theorem Width.bits_le (w : Width) : w.bits ≤ 64 := by cases w <;> decide
theorem Width.two_pow_bits (w : Width) : 2 ^ w.bits = 256 ^ w.bytes := by cases w <;> rfl

/-! ### Bytes in memory order -/

@[simp] theorem joinLE_nil : joinLE [] = 0 := rfl
@[simp] theorem joinLE_cons (b : Byte) (bs : List Byte) : joinLE (b :: bs) = b.toNat + 256 * joinLE bs := rfl
@[simp] theorem splitLE_zero (v : Nat) : splitLE 0 v = [] := rfl
theorem splitLE_succ (n v : Nat) : splitLE (n + 1) v = BitVec.ofNat 8 v :: splitLE n (v / 256) := rfl

@[simp] theorem length_splitLE (n v : Nat) : (splitLE n v).length = n := by
  induction n generalizing v with
  | zero => rfl
  | succ n ih => simp [splitLE_succ, ih]

/-- Joining the low `n` bytes of a number gives the number modulo `256 ^ n`. -/
theorem joinLE_splitLE (n v : Nat) : joinLE (splitLE n v) = v % 256 ^ n := by
  induction n generalizing v with
  | zero => simp [Nat.mod_one]
  | succ n ih =>
    have h : v % 256 ^ (n + 1) = v % 256 + 256 * (v / 256 % 256 ^ n) := by rw [Nat.pow_succ', Nat.mod_mul]
    rw [splitLE_succ, joinLE_cons, ih, BitVec.toNat_ofNat, h]

theorem joinLE_lt (bs : List Byte) : joinLE bs < 256 ^ bs.length := by
  induction bs with
  | nil => simp
  | cons b bs ih =>
    have hb : b.toNat < 256 := b.isLt
    rw [joinLE_cons, List.length_cons, Nat.pow_succ']
    omega

/-- Splitting a joined list gives the list back. -/
theorem splitLE_joinLE (bs : List Byte) : splitLE bs.length (joinLE bs) = bs := by
  induction bs with
  | nil => rfl
  | cons b bs ih =>
    have hb : b.toNat < 256 := b.isLt
    rw [List.length_cons, splitLE_succ, joinLE_cons]
    congr 1
    · apply BitVec.eq_of_toNat_eq
      rw [BitVec.toNat_ofNat]
      omega
    · have : (b.toNat + 256 * joinLE bs) / 256 = joinLE bs := by omega
      rw [this, ih]

/-- Byte `k` of the split is bits `8k+7 : 8k`. -/
theorem getElem?_splitLE (n v k : Nat) (h : k < n) : (splitLE n v)[k]? = some (BitVec.ofNat 8 (v / 256 ^ k)) := by
  induction n generalizing v k with
  | zero => omega
  | succ n ih =>
    cases k with
    | zero => simp [splitLE_succ]
    | succ k =>
      rw [splitLE_succ, List.getElem?_cons_succ, ih _ _ (by omega), Nat.div_div_eq_div_mul, Nat.pow_succ']

/-! ### The low bytes of a 64-bit value -/

theorem trunc_toNat (w : Width) (v : Qword) : (trunc w v).toNat = v.toNat % 2 ^ w.bits := by
  have h : v.toNat % 2 ^ w.bits < 2 ^ 64 := Nat.lt_of_le_of_lt (Nat.mod_le _ _) v.isLt
  simp only [trunc, BitVec.toNat_setWidth]
  exact Nat.mod_eq_of_lt h

theorem getLsbD_trunc (w : Width) (v : Qword) (i : Nat) :
    (trunc w v).getLsbD i = (decide (i < w.bits) && v.getLsbD i) := by
  have := w.bits_le
  simp only [trunc, BitVec.getLsbD_setWidth]
  by_cases h : i < w.bits <;> simp [h]
  omega

@[simp] theorem trunc_qword (v : Qword) : trunc .qword v = v := by
  apply BitVec.eq_of_toNat_eq
  rw [trunc_toNat]
  exact Nat.mod_eq_of_lt v.isLt

@[simp] theorem trunc_trunc (w : Width) (v : Qword) : trunc w (trunc w v) = trunc w v := by
  apply BitVec.eq_of_toNat_eq
  simp [trunc_toNat]

/-- A merge takes the low bytes from the new value and the bytes above from the old one. -/
theorem getLsbD_mergeLow (w : Width) (old v : Qword) (i : Nat) :
    (mergeLow w old v).getLsbD i = if i < w.bits then v.getLsbD i else old.getLsbD i := by
  have hw := w.bits_le
  simp only [mergeLow, BitVec.getLsbD_or, BitVec.getLsbD_shiftLeft, BitVec.getLsbD_ushiftRight, getLsbD_trunc]
  by_cases h : i < w.bits
  · simp [h]
  · simp only [h, decide_false, Bool.not_false, Bool.and_true, Bool.false_and, Bool.or_false, if_false]
    rw [show w.bits + (i - w.bits) = i by omega]
    by_cases hi : i < 64
    · simp [hi]
    · simp [hi, BitVec.getLsbD_of_ge _ _ (by omega : 64 ≤ i)]

/-- A value and its low `n` bytes split alike. -/
theorem splitLE_trunc (w : Width) (v : Qword) : splitLE w.bytes (trunc w v).toNat = splitLE w.bytes v.toNat := by
  have h := splitLE_joinLE (splitLE w.bytes v.toNat)
  rwa [length_splitLE, joinLE_splitLE, ← Width.two_pow_bits, ← trunc_toNat] at h

/-- Byte `k` of a 64-bit value, as a number and as bits `8k+7 : 8k`. -/
theorem ofNat_div_eq_extract (v : Qword) (k : Nat) : BitVec.ofNat 8 (v.toNat / 256 ^ k) = v.extractLsb' (8 * k) 8 := by
  apply BitVec.eq_of_toNat_eq
  rw [BitVec.toNat_ofNat, BitVec.extractLsb'_toNat, Nat.shiftRight_eq_div_pow, Nat.pow_mul]

theorem mergeLow_trunc (w : Width) (old v : Qword) : mergeLow w old (trunc w v) = mergeLow w old v := by
  simp [mergeLow]

@[simp] theorem mergeLow_self (w : Width) (v : Qword) : mergeLow w v v = v := by
  apply BitVec.eq_of_getLsbD_eq
  intro i _
  rw [getLsbD_mergeLow]
  split <;> rfl

end Sys2Proof
end

