-- ==== Sys2Proof/Laws/Decode.lean ====
section
/-!
SUPPORT. The decoder's parts: rows of the table, operands read and written, instructions built from operands.
-/

namespace Sys2Proof

/-! ### The table -/

/-- Every mnemonic has a row; its opcode selects that row, and the row's format has the mnemonic's shape. -/
theorem Mnemonic.row_spec (m : Mnemonic) :
    ∃ r, m.row? = some r ∧ r.mnemonic = m ∧ r.opcode = m.opcode ∧ rowOfOpcode m.opcode = some r ∧
      r.format.shape = m.shape := by
  cases m <;> exact ⟨_, rfl, rfl, rfl, rfl, rfl⟩

/-- A row found is a row of the table with that opcode byte, and its mnemonic's opcode is that byte. -/
theorem rowOfOpcode_some {op : Byte} {r : Row} (h : rowOfOpcode op = some r) :
    r ∈ opcodeTable ∧ r.opcode = op ∧ r.mnemonic.opcode = op ∧ r.format.shape = r.mnemonic.shape := by
  have hm : r ∈ opcodeTable := List.mem_of_find?_eq_some h
  have ho : r.opcode = op := by simpa using List.find?_some h
  have hall : ∀ r ∈ opcodeTable, r.mnemonic.opcode = r.opcode ∧ r.format.shape = r.mnemonic.shape := by decide +kernel
  exact ⟨hm, ho, (hall r hm).1.trans ho, (hall r hm).2⟩

theorem rowOfOpcode_none {op : Byte} : rowOfOpcode op = none ↔ ∀ r ∈ opcodeTable, r.opcode ≠ op := by
  simp [rowOfOpcode, List.find?_eq_none]

/-! ### Operands -/

@[simp] theorem Operand.encode_reg (c : Byte) : (Operand.reg c).encode = [c] := rfl
@[simp] theorem Operand.encode_imm (w : Width) (v : Qword) : (Operand.imm w v).encode = splitLE w.bytes v.toNat := rfl

theorem Operand.length_encode (o : Operand) : o.encode.length = o.kind.bytes := by
  cases o <;> simp [Operand.kind, OperandKind.bytes]

theorem Operand.length_flatMap_encode (ops : List Operand) :
    (ops.flatMap Operand.encode).length = ((ops.map Operand.kind).map OperandKind.bytes).sum := by
  induction ops with
  | nil => rfl
  | cons o ops ih => simp [List.flatMap_cons, Operand.length_encode, ih]

/-- Reading the bytes of operands that fit gives the operands back. -/
theorem readOperands_encode (ops : List Operand) (rest : List Byte) (h : ops.all Operand.fits = true) :
    readOperands (ops.map Operand.kind) (ops.flatMap Operand.encode ++ rest) = some (ops, rest) := by
  induction ops with
  | nil => rfl
  | cons o ops ih =>
    rw [List.all_cons, Bool.and_eq_true] at h
    have ih := ih h.2
    cases o with
    | reg c => simp [Operand.kind, List.flatMap_cons, readOperands, ih]
    | imm w v =>
      have hv : v.toNat < 2 ^ w.bits := by simpa [Operand.fits] using h.1
      have hsplit : BitVec.ofNat 64 (joinLE (splitLE w.bytes v.toNat)) = v := by
        rw [joinLE_splitLE, ← Width.two_pow_bits, Nat.mod_eq_of_lt hv, BitVec.ofNat_toNat, BitVec.setWidth_eq]
      have hlen : (splitLE w.bytes v.toNat ++ (ops.flatMap Operand.encode ++ rest)).length ≥ w.bytes := by simp
      have hdrop : (splitLE w.bytes v.toNat ++ (ops.flatMap Operand.encode ++ rest)).drop w.bytes =
          ops.flatMap Operand.encode ++ rest := by
        rw [List.drop_append_of_le_length (by simp), List.drop_of_length_le (by simp), List.nil_append]
      have htake : (splitLE w.bytes v.toNat ++ (ops.flatMap Operand.encode ++ rest)).take w.bytes =
          splitLE w.bytes v.toNat := by
        rw [List.take_append_of_le_length (by simp), List.take_of_length_le (by simp)]
      rw [List.map_cons, List.flatMap_cons, Operand.kind, Operand.encode_imm, List.append_assoc]
      unfold readOperands
      rw [if_neg (by omega), hdrop, ih, htake, hsplit]

/-- Operands read have the kinds asked for, fit, and their bytes are the bytes read. -/
theorem readOperands_inv {ks : List OperandKind} {bs rest : List Byte} {ops : List Operand}
    (h : readOperands ks bs = some (ops, rest)) :
    ops.map Operand.kind = ks ∧ ops.all Operand.fits = true ∧ ops.flatMap Operand.encode ++ rest = bs := by
  induction ks generalizing bs ops with
  | nil =>
    simp only [readOperands, Option.some.injEq, Prod.mk.injEq] at h
    obtain ⟨rfl, rfl⟩ := h
    simp
  | cons k ks ih =>
    cases k with
    | reg =>
      cases bs with
      | nil => simp [readOperands] at h
      | cons b bs =>
        simp only [readOperands] at h
        split at h
        · cases h
        · rename_i ops' rest' hr
          simp only [Option.some.injEq, Prod.mk.injEq] at h
          obtain ⟨rfl, rfl⟩ := h
          obtain ⟨h1, h2, h3⟩ := ih hr
          refine ⟨by simp [Operand.kind, h1], ?_, by simp [List.flatMap_cons, h3]⟩
          rw [List.all_cons, h2, Operand.fits, Bool.and_self]
    | imm w =>
      simp only [readOperands] at h
      split at h
      · cases h
      · rename_i hlen
        split at h
        · cases h
        · rename_i ops' rest' hr
          simp only [Option.some.injEq, Prod.mk.injEq] at h
          obtain ⟨rfl, rfl⟩ := h
          obtain ⟨h1, h2, h3⟩ := ih hr
          have hl : (bs.take w.bytes).length = w.bytes := by rw [List.length_take]; omega
          have hj := joinLE_lt (bs.take w.bytes)
          rw [hl, ← Width.two_pow_bits] at hj
          have h64 : (BitVec.ofNat 64 (joinLE (bs.take w.bytes))).toNat = joinLE (bs.take w.bytes) := by
            rw [BitVec.toNat_ofNat]
            exact Nat.mod_eq_of_lt (Nat.lt_of_lt_of_le hj (Nat.pow_le_pow_right (by omega) w.bits_le))
          refine ⟨by simp [Operand.kind, h1], ?_, ?_⟩
          · rw [List.all_cons, h2, Operand.fits, h64, decide_eq_true hj, Bool.and_self]
          · have hs := splitLE_joinLE (bs.take w.bytes)
            rw [hl] at hs
            rw [List.flatMap_cons, Operand.encode_imm, h64, hs, List.append_assoc, h3, List.take_append_drop]

/-! ### Instructions from operands -/

theorem Operand.setWidth_setWidth (w : Width) (v : BitVec w.bits) : (v.setWidth 64).setWidth w.bits = v := by
  apply BitVec.eq_of_toNat_eq
  have h : v.toNat < 2 ^ 64 := Nat.lt_of_lt_of_le v.isLt (Nat.pow_le_pow_right (by omega) w.bits_le)
  rw [BitVec.toNat_setWidth, BitVec.toNat_setWidth, Nat.mod_eq_of_lt h, Nat.mod_eq_of_lt v.isLt]

theorem Operand.trunc_of_fits {w : Width} {v : Qword} (h : (Operand.imm w v).fits = true) :
    (v.setWidth w.bits).setWidth 64 = v := by
  have h : v.toNat < 2 ^ w.bits := by simpa [Operand.fits] using h
  apply BitVec.eq_of_toNat_eq
  have ht := trunc_toNat w v
  rw [Nat.mod_eq_of_lt h] at ht
  exact ht

theorem Operand.immReg_self (w : Width) (f : BitVec w.bits → Byte → Instr) (v : BitVec w.bits) (b : Byte) :
    Operand.immReg w f [.imm w (v.setWidth 64), .reg b] = some (f v b) := by
  rw [Operand.immReg, if_pos rfl, Operand.setWidth_setWidth]

theorem Operand.immImm_self (w : Width) (f : BitVec w.bits → Qword → Instr) (v : BitVec w.bits) (x : Qword) :
    Operand.immImm w f [.imm w (v.setWidth 64), .imm .qword x] = some (f v x) := by
  rw [Operand.immImm, if_pos rfl, Operand.setWidth_setWidth]

/-- An operand of a kind is a register, or an immediate of that width. -/
theorem Operand.kind_eq_reg {o : Operand} (h : o.kind = .reg) : ∃ c, o = .reg c := by
  cases o with
  | reg c => exact ⟨c, rfl⟩
  | imm => cases h

theorem Operand.kind_eq_imm {o : Operand} {w : Width} (h : o.kind = .imm w) : ∃ v, o = .imm w v := by
  cases o with
  | reg => cases h
  | imm w' v =>
    cases h
    exact ⟨v, rfl⟩

theorem Operand.map_kind_pair {ops : List Operand} {k k' : OperandKind} (h : ops.map Operand.kind = [k, k']) :
    ∃ a b, ops = [a, b] ∧ a.kind = k ∧ b.kind = k' := by
  match ops, h with
  | [a, b], h =>
    simp only [List.map_cons, List.map_nil, List.cons.injEq, and_true] at h
    exact ⟨a, b, rfl, h⟩

/-- Operands of the opcode's kinds that fit make an instruction of that opcode with those operands (R155). -/
theorem Instr.ofOperands_of_shape (m : Mnemonic) (ops : List Operand) (hk : ops.map Operand.kind = m.shape)
    (hf : ops.all Operand.fits = true) :
    ∃ i, Instr.ofOperands m ops = some i ∧ i.mnemonic = m ∧ i.operands = ops := by
  have regReg (h : ops.map Operand.kind = [.reg, .reg]) : ∃ a b, ops = [.reg a, .reg b] := by
    obtain ⟨_, _, rfl, ha, hb⟩ := Operand.map_kind_pair h
    obtain ⟨a, rfl⟩ := Operand.kind_eq_reg ha
    obtain ⟨b, rfl⟩ := Operand.kind_eq_reg hb
    exact ⟨a, b, rfl⟩
  have immReg (w : Width) (h : ops.map Operand.kind = [.imm w, .reg]) :
      ∃ (v : BitVec w.bits) (b : Byte), ops = [.imm w (v.setWidth 64), .reg b] := by
    obtain ⟨_, _, rfl, ha, hb⟩ := Operand.map_kind_pair h
    obtain ⟨v, rfl⟩ := Operand.kind_eq_imm ha
    obtain ⟨b, rfl⟩ := Operand.kind_eq_reg hb
    have hv : (Operand.imm w v).fits = true := by
      rw [List.all_cons, Bool.and_eq_true] at hf
      exact hf.1
    exact ⟨v.setWidth w.bits, b, by rw [Operand.trunc_of_fits hv]⟩
  have regImm (h : ops.map Operand.kind = [.reg, .imm .qword]) : ∃ a v, ops = [.reg a, .imm .qword v] := by
    obtain ⟨_, _, rfl, ha, hb⟩ := Operand.map_kind_pair h
    obtain ⟨a, rfl⟩ := Operand.kind_eq_reg ha
    obtain ⟨v, rfl⟩ := Operand.kind_eq_imm hb
    exact ⟨a, v, rfl⟩
  have immImm (w : Width) (h : ops.map Operand.kind = [.imm w, .imm .qword]) :
      ∃ (v : BitVec w.bits) (x : Qword), ops = [.imm w (v.setWidth 64), .imm .qword x] := by
    obtain ⟨_, _, rfl, ha, hb⟩ := Operand.map_kind_pair h
    obtain ⟨v, rfl⟩ := Operand.kind_eq_imm ha
    obtain ⟨x, rfl⟩ := Operand.kind_eq_imm hb
    have hv : (Operand.imm w v).fits = true := by
      rw [List.all_cons, Bool.and_eq_true] at hf
      exact hf.1
    exact ⟨v.setWidth w.bits, x, by rw [Operand.trunc_of_fits hv]⟩
  cases m with
  | movBRToR =>
    obtain ⟨a, b, rfl⟩ := regReg hk
    exact ⟨_, rfl, rfl, rfl⟩
  | movWRToR =>
    obtain ⟨a, b, rfl⟩ := regReg hk
    exact ⟨_, rfl, rfl, rfl⟩
  | movDRToR =>
    obtain ⟨a, b, rfl⟩ := regReg hk
    exact ⟨_, rfl, rfl, rfl⟩
  | movR =>
    obtain ⟨a, b, rfl⟩ := regReg hk
    exact ⟨_, rfl, rfl, rfl⟩
  | movBIToR =>
    obtain ⟨v, b, rfl⟩ := immReg .byte hk
    exact ⟨_, Operand.immReg_self .byte Instr.movBIToR v b, rfl, rfl⟩
  | movWIToR =>
    obtain ⟨v, b, rfl⟩ := immReg .word hk
    exact ⟨_, Operand.immReg_self .word Instr.movWIToR v b, rfl, rfl⟩
  | movDIToR =>
    obtain ⟨v, b, rfl⟩ := immReg .dword hk
    exact ⟨_, Operand.immReg_self .dword Instr.movDIToR v b, rfl, rfl⟩
  | movI =>
    obtain ⟨v, b, rfl⟩ := immReg .qword hk
    exact ⟨_, Operand.immReg_self .qword Instr.movI v b, rfl,
      congrArg (fun u => [Operand.imm .qword u, Operand.reg b]) (BitVec.setWidth_eq (v : Qword)).symm⟩
  | saveBRToR =>
    obtain ⟨a, b, rfl⟩ := regReg hk
    exact ⟨_, rfl, rfl, rfl⟩
  | saveWRToR =>
    obtain ⟨a, b, rfl⟩ := regReg hk
    exact ⟨_, rfl, rfl, rfl⟩
  | saveDRToR =>
    obtain ⟨a, b, rfl⟩ := regReg hk
    exact ⟨_, rfl, rfl, rfl⟩
  | saveQRToR =>
    obtain ⟨a, b, rfl⟩ := regReg hk
    exact ⟨_, rfl, rfl, rfl⟩
  | saveBIToR =>
    obtain ⟨v, b, rfl⟩ := immReg .byte hk
    exact ⟨_, Operand.immReg_self .byte Instr.saveBIToR v b, rfl, rfl⟩
  | saveWIToR =>
    obtain ⟨v, b, rfl⟩ := immReg .word hk
    exact ⟨_, Operand.immReg_self .word Instr.saveWIToR v b, rfl, rfl⟩
  | saveDIToR =>
    obtain ⟨v, b, rfl⟩ := immReg .dword hk
    exact ⟨_, Operand.immReg_self .dword Instr.saveDIToR v b, rfl, rfl⟩
  | saveQIToR =>
    obtain ⟨v, b, rfl⟩ := immReg .qword hk
    exact ⟨_, Operand.immReg_self .qword Instr.saveQIToR v b, rfl,
      congrArg (fun u => [Operand.imm .qword u, Operand.reg b]) (BitVec.setWidth_eq (v : Qword)).symm⟩
  | saveBRToI =>
    obtain ⟨a, v, rfl⟩ := regImm hk
    exact ⟨_, rfl, rfl, rfl⟩
  | saveWRToI =>
    obtain ⟨a, v, rfl⟩ := regImm hk
    exact ⟨_, rfl, rfl, rfl⟩
  | saveDRToI =>
    obtain ⟨a, v, rfl⟩ := regImm hk
    exact ⟨_, rfl, rfl, rfl⟩
  | saveQRToI =>
    obtain ⟨a, v, rfl⟩ := regImm hk
    exact ⟨_, rfl, rfl, rfl⟩
  | saveBIToI =>
    obtain ⟨v, x, rfl⟩ := immImm .byte hk
    exact ⟨_, Operand.immImm_self .byte Instr.saveBIToI v x, rfl, rfl⟩
  | saveWIToI =>
    obtain ⟨v, x, rfl⟩ := immImm .word hk
    exact ⟨_, Operand.immImm_self .word Instr.saveWIToI v x, rfl, rfl⟩
  | saveDIToI =>
    obtain ⟨v, x, rfl⟩ := immImm .dword hk
    exact ⟨_, Operand.immImm_self .dword Instr.saveDIToI v x, rfl, rfl⟩
  | saveQIToI =>
    obtain ⟨v, x, rfl⟩ := immImm .qword hk
    exact ⟨_, Operand.immImm_self .qword Instr.saveQIToI v x, rfl,
      congrArg (fun u => [Operand.imm .qword u, Operand.imm .qword x]) (BitVec.setWidth_eq (v : Qword)).symm⟩
  | loadBRToR =>
    obtain ⟨a, b, rfl⟩ := regReg hk
    exact ⟨_, rfl, rfl, rfl⟩
  | loadWRToR =>
    obtain ⟨a, b, rfl⟩ := regReg hk
    exact ⟨_, rfl, rfl, rfl⟩
  | loadDRToR =>
    obtain ⟨a, b, rfl⟩ := regReg hk
    exact ⟨_, rfl, rfl, rfl⟩
  | loadQRToR =>
    obtain ⟨a, b, rfl⟩ := regReg hk
    exact ⟨_, rfl, rfl, rfl⟩
  | loadBIToR =>
    obtain ⟨v, b, rfl⟩ := immReg .qword hk
    exact ⟨_, Operand.immReg_self .qword Instr.loadBIToR v b, rfl,
      congrArg (fun u => [Operand.imm .qword u, Operand.reg b]) (BitVec.setWidth_eq (v : Qword)).symm⟩
  | loadWIToR =>
    obtain ⟨v, b, rfl⟩ := immReg .qword hk
    exact ⟨_, Operand.immReg_self .qword Instr.loadWIToR v b, rfl,
      congrArg (fun u => [Operand.imm .qword u, Operand.reg b]) (BitVec.setWidth_eq (v : Qword)).symm⟩
  | loadDIToR =>
    obtain ⟨v, b, rfl⟩ := immReg .qword hk
    exact ⟨_, Operand.immReg_self .qword Instr.loadDIToR v b, rfl,
      congrArg (fun u => [Operand.imm .qword u, Operand.reg b]) (BitVec.setWidth_eq (v : Qword)).symm⟩
  | loadQIToR =>
    obtain ⟨v, b, rfl⟩ := immReg .qword hk
    exact ⟨_, Operand.immReg_self .qword Instr.loadQIToR v b, rfl,
      congrArg (fun u => [Operand.imm .qword u, Operand.reg b]) (BitVec.setWidth_eq (v : Qword)).symm⟩
  | inc =>
    obtain rfl : ops = [] := by simpa [Mnemonic.shape] using hk
    exact ⟨_, rfl, rfl, rfl⟩
  | dec =>
    obtain rfl : ops = [] := by simpa [Mnemonic.shape] using hk
    exact ⟨_, rfl, rfl, rfl⟩

/-- The operands of an instruction have its opcode's kinds and fit. -/
theorem Instr.operands_wellFormed (i : Instr) :
    i.operands.map Operand.kind = i.mnemonic.shape ∧ i.operands.all Operand.fits = true := by
  have hfit (w : Width) (v : BitVec w.bits) : (Operand.imm w (v.setWidth 64)).fits = true := by
    have h : v.toNat < 2 ^ 64 := Nat.lt_of_lt_of_le v.isLt (Nat.pow_le_pow_right (by omega) w.bits_le)
    rw [Operand.fits, BitVec.toNat_setWidth, Nat.mod_eq_of_lt h]
    exact decide_eq_true v.isLt
  have hq (v : Qword) : (Operand.imm .qword v).fits = true := decide_eq_true v.isLt
  have hb := hfit .byte
  have hw := hfit .word
  have hd := hfit .dword
  have hr (c : Byte) : (Operand.reg c).fits = true := rfl
  refine ⟨by cases i <;> rfl, ?_⟩
  cases i <;>
    simp only [Instr.operands, List.all_cons, List.all_nil, Bool.and_true, hr, hq] <;>
    first
      | exact hb _
      | exact hw _
      | exact hd _

/-- An instruction is built back from its mnemonic and its operands. -/
theorem Instr.ofOperands_operands (i : Instr) : Instr.ofOperands i.mnemonic i.operands = some i := by
  cases i with
  | movBRToR ss dd => rfl
  | movWRToR ss dd => rfl
  | movDRToR ss dd => rfl
  | movR ss dd => rfl
  | movBIToR imm dd => exact Operand.immReg_self .byte Instr.movBIToR imm dd
  | movWIToR imm dd => exact Operand.immReg_self .word Instr.movWIToR imm dd
  | movDIToR imm dd => exact Operand.immReg_self .dword Instr.movDIToR imm dd
  | movI imm dd => exact (congrArg (fun v => some (Instr.movI v dd)) (BitVec.setWidth_eq imm))
  | saveBRToR ss aa => rfl
  | saveWRToR ss aa => rfl
  | saveDRToR ss aa => rfl
  | saveQRToR ss aa => rfl
  | saveBIToR imm aa => exact Operand.immReg_self .byte Instr.saveBIToR imm aa
  | saveWIToR imm aa => exact Operand.immReg_self .word Instr.saveWIToR imm aa
  | saveDIToR imm aa => exact Operand.immReg_self .dword Instr.saveDIToR imm aa
  | saveQIToR imm aa => exact (congrArg (fun v => some (Instr.saveQIToR v aa)) (BitVec.setWidth_eq imm))
  | saveBRToI ss addr => rfl
  | saveWRToI ss addr => rfl
  | saveDRToI ss addr => rfl
  | saveQRToI ss addr => rfl
  | saveBIToI imm addr => exact Operand.immImm_self .byte Instr.saveBIToI imm addr
  | saveWIToI imm addr => exact Operand.immImm_self .word Instr.saveWIToI imm addr
  | saveDIToI imm addr => exact Operand.immImm_self .dword Instr.saveDIToI imm addr
  | saveQIToI imm addr => exact (congrArg (fun v => some (Instr.saveQIToI v addr)) (BitVec.setWidth_eq imm))
  | loadBRToR aa dd => rfl
  | loadWRToR aa dd => rfl
  | loadDRToR aa dd => rfl
  | loadQRToR aa dd => rfl
  | loadBIToR addr dd => exact (congrArg (fun v => some (Instr.loadBIToR v dd)) (BitVec.setWidth_eq addr))
  | loadWIToR addr dd => exact (congrArg (fun v => some (Instr.loadWIToR v dd)) (BitVec.setWidth_eq addr))
  | loadDIToR addr dd => exact (congrArg (fun v => some (Instr.loadDIToR v dd)) (BitVec.setWidth_eq addr))
  | loadQIToR addr dd => exact (congrArg (fun v => some (Instr.loadQIToR v dd)) (BitVec.setWidth_eq addr))
  | inc => rfl
  | dec => rfl

/-- An instruction is determined by its mnemonic and its operands. -/
theorem Instr.ext_operands {i j : Instr} (hm : i.mnemonic = j.mnemonic) (ho : i.operands = j.operands) : i = j := by
  have h := i.ofOperands_operands
  rw [hm, ho, j.ofOperands_operands] at h
  exact (Option.some.inj h).symm

/-! ### The decoder -/

/-- Reading operands fails exactly when there are fewer bytes than the kinds take (30_encoding.md R171). -/
theorem readOperands_eq_none {ks : List OperandKind} {bs : List Byte} :
    readOperands ks bs = none ↔ bs.length < (ks.map OperandKind.bytes).sum := by
  induction ks generalizing bs with
  | nil => simp [readOperands]
  | cons k ks ih =>
    cases k with
    | reg =>
      cases bs with
      | nil => simp [readOperands, OperandKind.bytes]
      | cons b bs =>
        have ih := @ih bs
        simp only [readOperands, List.map_cons, List.sum_cons, OperandKind.bytes, List.length_cons]
        cases h : readOperands ks bs with
        | none => simp [h] at ih ⊢; omega
        | some p => simp [h] at ih ⊢; omega
    | imm w =>
      have ih := @ih (bs.drop w.bytes)
      simp only [readOperands, List.map_cons, List.sum_cons, OperandKind.bytes]
      rw [List.length_drop] at ih
      split
      · simp; omega
      · cases h : readOperands ks (bs.drop w.bytes) with
        | none => simp [h] at ih ⊢; omega
        | some p => simp [h] at ih ⊢; omega

/-- All the decoder can do on a byte and the bytes after it. -/
theorem decode_cons_cases (op : Byte) (bs : List Byte) :
    (rowOfOpcode op = none ∧ decode (op :: bs) = .unknownOpcode) ∨
    (∃ r, rowOfOpcode op = some r ∧ bs.length + 1 < r.format.length ∧ decode (op :: bs) = .truncated) ∨
    (∃ r i rest, rowOfOpcode op = some r ∧ i.mnemonic = r.mnemonic ∧
      readOperands r.format.shape bs = some (i.operands, rest) ∧ decode (op :: bs) = .instr i rest) := by
  cases hr : rowOfOpcode op with
  | none => exact .inl ⟨rfl, by simp only [decode, hr]⟩
  | some r =>
    obtain ⟨-, -, -, hs⟩ := rowOfOpcode_some hr
    cases ho : readOperands r.format.shape bs with
    | none =>
      refine .inr (.inl ⟨r, rfl, ?_, by simp only [decode, hr, ho]⟩)
      have := readOperands_eq_none.1 ho
      simp only [Format.length]
      omega
    | some p =>
      obtain ⟨ops, rest⟩ := p
      obtain ⟨hk, hf, -⟩ := readOperands_inv ho
      obtain ⟨i, hi, hm, hops⟩ := Instr.ofOperands_of_shape r.mnemonic ops (hk.trans hs) hf
      exact .inr (.inr ⟨r, i, rest, rfl, hm, by rw [hops, ho], by simp only [decode, hr, ho, hi]⟩)

end Sys2Proof
end

