-- ==== Sys2Proof/Laws/Memory.lean ====
section
/-!
SUPPORT. Memory: read after write, what a write leaves alone, and that every operation keeps the canonical form.
-/

namespace Sys2Proof.Machine

@[simp] theorem Memory.byteAt_nil (a : Nat) : Memory.byteAt [] a = Config.unlistedByte := rfl

theorem Memory.byteAt_cons (a' : Nat) (b : Byte) (m : Memory) (a : Nat) :
    Memory.byteAt ((a', b) :: m) a = if a' = a then b else Memory.byteAt m a := rfl

/-! ### One byte -/

theorem Memory.byteAt_filter_self (m : Memory) (a : Nat) :
    Memory.byteAt (m.filter (fun c => decide (c.1 ≠ a))) a = Config.unlistedByte := by
  induction m with
  | nil => rfl
  | cons c m ih =>
    by_cases h : c.1 = a
    · simpa [h] using ih
    · rw [List.filter_cons_of_pos (by simp [h]), Memory.byteAt_cons, if_neg h, ih]

theorem Memory.byteAt_filter_ne (m : Memory) {a x : Nat} (hx : x ≠ a) :
    Memory.byteAt (m.filter (fun c => decide (c.1 ≠ a))) x = m.byteAt x := by
  induction m with
  | nil => rfl
  | cons c m ih =>
    by_cases h : c.1 = a
    · rw [List.filter_cons_of_neg (by simp [h]), ih, Memory.byteAt_cons, if_neg (by omega)]
    · rw [List.filter_cons_of_pos (by simp [h]), Memory.byteAt_cons, Memory.byteAt_cons, ih]

theorem Memory.byteAt_insertCell_ne (m : Memory) {a x : Nat} (b : Byte) (hx : x ≠ a) :
    Memory.byteAt (Memory.insertCell a b m) x = m.byteAt x := by
  induction m with
  | nil => simp [Memory.insertCell, Memory.byteAt_cons, hx.symm]
  | cons c m ih =>
    unfold Memory.insertCell
    split
    · rw [Memory.byteAt_cons, if_neg hx.symm]
    · rw [Memory.byteAt_cons, Memory.byteAt_cons, ih]

theorem Memory.byteAt_insertCell_self (m : Memory) (a : Nat) (b : Byte) (h : ∀ c ∈ m, c.1 ≠ a) :
    Memory.byteAt (Memory.insertCell a b m) a = b := by
  induction m with
  | nil => simp [Memory.insertCell, Memory.byteAt_cons]
  | cons c m ih =>
    unfold Memory.insertCell
    split
    · simp [Memory.byteAt_cons]
    · rw [Memory.byteAt_cons, if_neg (h c (by simp)), ih (fun c hc => h c (by simp [hc]))]

/-- A read after a write to the same byte gives the value written, in every memory. -/
@[simp] theorem Memory.byteAt_setByte_self (m : Memory) (a : Nat) (b : Byte) : (m.setByte a b).byteAt a = b := by
  unfold Memory.setByte
  dsimp only
  split
  · rename_i hb
    rw [Memory.byteAt_filter_self, hb]
  · exact Memory.byteAt_insertCell_self _ _ _ (by simp)

/-- A write leaves every other byte alone. -/
theorem Memory.byteAt_setByte_ne (m : Memory) {a x : Nat} (b : Byte) (hx : x ≠ a) :
    (m.setByte a b).byteAt x = m.byteAt x := by
  unfold Memory.setByte
  dsimp only
  split
  · exact Memory.byteAt_filter_ne m hx
  · rw [Memory.byteAt_insertCell_ne _ _ hx, Memory.byteAt_filter_ne m hx]

/-! ### The canonical form -/

/-- Every listed address is above `a`. -/
theorem Memory.wf_cons {a : Nat} {b : Byte} {m : Memory} :
    Memory.wf ((a, b) :: m) = true ↔ b ≠ Config.unlistedByte ∧ (∀ c ∈ m, a < c.1) ∧ Memory.wf m = true := by
  simp [Memory.wf, and_assoc]

theorem Memory.wf_filter {m : Memory} (h : Memory.wf m = true) (p : Host.Cell → Bool) :
    Memory.wf (m.filter p) = true := by
  induction m with
  | nil => rfl
  | cons c m ih =>
    obtain ⟨hb, hr, hm⟩ := Memory.wf_cons.1 h
    rw [List.filter_cons]
    split
    · exact Memory.wf_cons.2 ⟨hb, fun x hx => hr x (List.mem_of_mem_filter hx), ih hm⟩
    · exact ih hm

theorem Memory.mem_insertCell {m : Memory} {a : Nat} {b : Byte} {c : Host.Cell} :
    c ∈ Memory.insertCell a b m ↔ c = (a, b) ∨ c ∈ m := by
  induction m with
  | nil => simp [Memory.insertCell]
  | cons d m ih =>
    unfold Memory.insertCell
    split
    · simp
    · simp only [List.mem_cons, ih]
      tauto

theorem Memory.wf_insertCell {m : Memory} {a : Nat} {b : Byte} (h : Memory.wf m = true) (hb : b ≠ Config.unlistedByte)
    (ha : ∀ c ∈ m, c.1 ≠ a) : Memory.wf (Memory.insertCell a b m) = true := by
  induction m with
  | nil => simp [Memory.insertCell, Memory.wf, hb]
  | cons d m ih =>
    obtain ⟨hd, hr, hm⟩ := Memory.wf_cons.1 h
    unfold Memory.insertCell
    split
    · rename_i hlt
      refine Memory.wf_cons.2 ⟨hb, fun c hc => ?_, h⟩
      rcases List.mem_cons.1 hc with rfl | hc
      · exact hlt
      · exact Nat.lt_trans hlt (hr c hc)
    · rename_i hge
      have hne := ha d (by simp)
      refine Memory.wf_cons.2 ⟨hd, fun c hc => ?_, ih hm (fun c hc => ha c (by simp [hc]))⟩
      rcases Memory.mem_insertCell.1 hc with rfl | hc
      · show d.1 < a
        omega
      · exact hr c hc

/-- A write keeps the canonical form. -/
theorem Memory.wf_setByte {m : Memory} (h : Memory.wf m = true) (a : Nat) (b : Byte) :
    Memory.wf (m.setByte a b) = true := by
  unfold Memory.setByte
  dsimp only
  split
  · exact Memory.wf_filter h _
  · rename_i hb
    exact Memory.wf_insertCell (Memory.wf_filter h _) hb (by simp)

/-- A write lists no address but its own and those listed before. -/
theorem Memory.addr_setByte {m : Memory} {a : Nat} {b : Byte} {c : Host.Cell} (h : c ∈ m.setByte a b) :
    c.1 = a ∨ c ∈ m := by
  unfold Memory.setByte at h
  dsimp only at h
  split at h
  · exact .inr (List.mem_of_mem_filter h)
  · rcases Memory.mem_insertCell.1 h with rfl | h
    · exact .inl rfl
    · exact .inr (List.mem_of_mem_filter h)

/-! ### Several bytes -/

@[simp] theorem Memory.bytesFrom_zero (m : Memory) (a : Nat) : m.bytesFrom a 0 = [] := rfl
theorem Memory.bytesFrom_succ (m : Memory) (a n : Nat) : m.bytesFrom a (n + 1) = m.byteAt a :: m.bytesFrom (a + 1) n := rfl

@[simp] theorem Memory.length_bytesFrom (m : Memory) (a n : Nat) : (m.bytesFrom a n).length = n := by
  induction n generalizing a with
  | zero => rfl
  | succ n ih => simp [Memory.bytesFrom_succ, ih]

theorem Memory.getElem?_bytesFrom (m : Memory) (a n k : Nat) (h : k < n) :
    (m.bytesFrom a n)[k]? = some (m.byteAt (a + k)) := by
  induction n generalizing a k with
  | zero => omega
  | succ n ih =>
    cases k with
    | zero => simp [Memory.bytesFrom_succ]
    | succ k =>
      rw [Memory.bytesFrom_succ, List.getElem?_cons_succ, ih _ _ (by omega), Nat.add_right_comm, Nat.add_assoc]

theorem Memory.bytesFrom_add (m : Memory) (a n k : Nat) :
    m.bytesFrom a (n + k) = m.bytesFrom a n ++ m.bytesFrom (a + n) k := by
  induction n generalizing a with
  | zero => simp
  | succ n ih =>
    rw [Nat.succ_add, Memory.bytesFrom_succ, Memory.bytesFrom_succ, ih, List.cons_append]
    congr 3
    omega

theorem Memory.drop_bytesFrom (m : Memory) (a : Nat) {n k : Nat} (h : k ≤ n) :
    (m.bytesFrom a n).drop k = m.bytesFrom (a + k) (n - k) := by
  obtain ⟨j, rfl⟩ := Nat.exists_eq_add_of_le h
  rw [Memory.bytesFrom_add, List.drop_append_of_le_length (by simp), List.drop_of_length_le (by simp), List.nil_append,
    Nat.add_sub_cancel_left]

theorem Memory.take_bytesFrom (m : Memory) (a : Nat) {n k : Nat} (h : k ≤ n) :
    (m.bytesFrom a n).take k = m.bytesFrom a k := by
  obtain ⟨j, rfl⟩ := Nat.exists_eq_add_of_le h
  rw [Memory.bytesFrom_add, List.take_append_of_le_length (by simp), List.take_of_length_le (by simp)]

/-- The number that the bytes of a span stand for, as the spec's sum. -/
theorem Memory.joinLE_bytesFrom (m : Memory) (a n : Nat) :
    joinLE (m.bytesFrom a n) = ∑ k ∈ Finset.range n, (m.byteAt (a + k)).toNat * 2 ^ (8 * k) := by
  induction n generalizing a with
  | zero => rfl
  | succ n ih =>
    rw [Memory.bytesFrom_succ, joinLE_cons, ih, Finset.sum_range_succ', Nat.add_comm]
    simp only [Nat.add_zero, Nat.mul_zero, Nat.pow_zero, Nat.mul_one, Finset.mul_sum]
    congr 1
    refine Finset.sum_congr rfl fun k _ => ?_
    rw [show a + 1 + k = a + (k + 1) by omega, show 8 * (k + 1) = 8 * k + 8 by omega, Nat.pow_add]
    ring

/-- Two memories that read alike over a span give the same bytes. -/
theorem Memory.bytesFrom_congr {m m' : Memory} {a n : Nat} (h : ∀ x, a ≤ x → x < a + n → m.byteAt x = m'.byteAt x) :
    m.bytesFrom a n = m'.bytesFrom a n := by
  induction n generalizing a with
  | zero => rfl
  | succ n ih =>
    rw [Memory.bytesFrom_succ, Memory.bytesFrom_succ, h a (by omega) (by omega), ih (fun x h1 h2 => h x (by omega) (by omega))]

@[simp] theorem Memory.setBytes_nil (m : Memory) (a : Nat) : m.setBytes a [] = m := rfl
theorem Memory.setBytes_cons (m : Memory) (a : Nat) (b : Byte) (bs : List Byte) :
    m.setBytes a (b :: bs) = (m.setByte a b).setBytes (a + 1) bs := rfl

/-- A store leaves every byte outside its span alone. -/
theorem Memory.byteAt_setBytes_outside (m : Memory) {a x : Nat} (bs : List Byte) (hx : x < a ∨ a + bs.length ≤ x) :
    (m.setBytes a bs).byteAt x = m.byteAt x := by
  induction bs generalizing m a with
  | nil => rfl
  | cons b bs ih =>
    rw [List.length_cons] at hx
    rw [Memory.setBytes_cons, ih _ (by omega), Memory.byteAt_setByte_ne _ _ (by omega)]

/-- A store puts its `k`-th byte at `a + k`. -/
theorem Memory.byteAt_setBytes_inside (m : Memory) (a k : Nat) (bs : List Byte) (b : Byte) (h : bs[k]? = some b) :
    (m.setBytes a bs).byteAt (a + k) = b := by
  induction bs generalizing m a k with
  | nil => simp at h
  | cons c bs ih =>
    rw [Memory.setBytes_cons]
    cases k with
    | zero =>
      rw [Memory.byteAt_setBytes_outside _ _ (by omega), Nat.add_zero, Memory.byteAt_setByte_self]
      simpa using h
    | succ k =>
      rw [show a + (k + 1) = a + 1 + k by omega]
      exact ih _ _ _ (by simpa using h)

/-- Reading back a span that was stored gives the bytes stored. -/
@[simp] theorem Memory.bytesFrom_setBytes (m : Memory) (a : Nat) (bs : List Byte) :
    (m.setBytes a bs).bytesFrom a bs.length = bs := by
  apply List.ext_getElem? 
  intro k
  by_cases hk : k < bs.length
  · rw [Memory.getElem?_bytesFrom _ _ _ _ hk, List.getElem?_eq_getElem hk,
      Memory.byteAt_setBytes_inside m a k bs _ (List.getElem?_eq_getElem hk)]
  · rw [List.getElem?_eq_none (by simpa using hk), List.getElem?_eq_none (by omega)]

/-- A store keeps the canonical form. -/
theorem Memory.wf_setBytes {m : Memory} (h : Memory.wf m = true) (a : Nat) (bs : List Byte) :
    Memory.wf (m.setBytes a bs) = true := by
  induction bs generalizing m a with
  | nil => exact h
  | cons b bs ih => exact ih (Memory.wf_setByte h a b) _

theorem Memory.setBytes_append (m : Memory) (a : Nat) (bs cs : List Byte) :
    m.setBytes a (bs ++ cs) = (m.setBytes a bs).setBytes (a + bs.length) cs := by
  induction bs generalizing m a with
  | nil => rfl
  | cons b bs ih =>
    rw [List.cons_append, Memory.setBytes_cons, ih, Memory.setBytes_cons, List.length_cons]
    congr 1
    omega

/-- A store below a bound keeps every listed address below it. -/
theorem Memory.addr_setBytes {m : Memory} {a C : Nat} {bs : List Byte} (h : ∀ c ∈ m, c.1 < C)
    (hb : a + bs.length ≤ C) : ∀ c ∈ m.setBytes a bs, c.1 < C := by
  induction bs generalizing m a with
  | nil => exact h
  | cons b bs ih =>
    rw [List.length_cons] at hb
    refine ih (fun c hc => ?_) (by omega)
    rcases Memory.addr_setByte hc with hc | hc
    · omega
    · exact h c hc

end Sys2Proof.Machine
end

