-- ==== Sys2Proof/Laws/State.lean ====
section
/-!
SUPPORT. One lemma per field per update of the state, so that no proof unfolds a record update.
-/

namespace Sys2Proof.Machine

/-! ### The register file -/

theorem Regs.get_set (r : Regs) (n n' : RegName) (v : Qword) :
    (r.set n v).get n' = if n' = n then v else r.get n' := by
  cases n <;> cases n' <;> rfl

/-- Two register files that agree on every register are equal. -/
theorem Regs.ext_get {r r' : Regs} (h : ∀ n, r.get n = r'.get n) : r = r' := by
  have h0 := h .r0; have h1 := h .r1; have h2 := h .r2; have h3 := h .r3; have h4 := h .r4
  have h5 := h .r5; have h6 := h .r6; have h7 := h .r7; have h8 := h .r8; have h9 := h .r9
  have ha := h .rcount; have hb := h .flags; have hc := h .stackPointer; have hd := h .stackStart
  have he := h .stackEnd; have hf := h .programStartLocation; have hg := h .programCounter
  cases r
  cases r'
  simp_all [Regs.get]

@[simp] theorem Regs.set_get (r : Regs) (n : RegName) : r.set n (r.get n) = r := by
  cases n <;> rfl

@[simp] theorem Regs.set_set (r : Regs) (n : RegName) (v v' : Qword) : (r.set n v).set n v' = r.set n v' := by
  cases n <;> rfl

@[simp] theorem Regs.get_zero (n : RegName) : Regs.zero.get n = 0 := by cases n <;> rfl

@[simp] theorem RegName.ofCode_code (n : RegName) : RegName.ofCode n.code = some n := by cases n <;> rfl

/-- A code names a register exactly when it is at most 0x10, and the register it names has that code. -/
theorem RegName.code_of_ofCode {c : Byte} {n : RegName} (h : RegName.ofCode c = some n) : n.code = c := by
  have hall : ∀ k : Fin 256, ∀ n, RegName.ofCode (BitVec.ofFin k) = some n → n.code = BitVec.ofFin k := by decide +kernel
  exact hall c.toFin n h

theorem RegName.ofCode_isSome (c : Byte) : (RegName.ofCode c).isSome = decide (c.toNat ≤ 0x10) := by
  have hall : ∀ k : Fin 256, (RegName.ofCode (BitVec.ofFin k)).isSome = decide (k.val ≤ 0x10) := by decide +kernel
  exact hall c.toFin

theorem RegName.ofCode_eq_none {c : Byte} (h : 0x10 < c.toNat) : RegName.ofCode c = none := by
  have := RegName.ofCode_isSome c
  rw [decide_eq_false (by omega)] at this
  simpa using this

theorem RegName.ofCode_eq_some {c : Byte} (h : c.toNat ≤ 0x10) : ∃ n, RegName.ofCode c = some n ∧ n.code = c := by
  have := RegName.ofCode_isSome c
  rw [decide_eq_true h, Option.isSome_iff_exists] at this
  obtain ⟨n, hn⟩ := this
  exact ⟨n, hn, RegName.code_of_ofCode hn⟩

theorem RegName.code_injective {n n' : RegName} (h : n.code = n'.code) : n = n' := by
  have := congrArg RegName.ofCode h
  simpa using this

/-! ### setReg -/

theorem State.reg_setReg (s : State) (n n' : RegName) (v : Qword) :
    (s.setReg n v).reg n' = if n' = n then v else s.reg n' := Regs.get_set _ _ _ _
@[simp] theorem State.reg_setReg_self (s : State) (n : RegName) (v : Qword) : (s.setReg n v).reg n = v := by
  simp [State.reg_setReg]
theorem State.reg_setReg_ne (s : State) {n n' : RegName} (v : Qword) (h : n' ≠ n) :
    (s.setReg n v).reg n' = s.reg n' := by simp [State.reg_setReg, h]
@[simp] theorem State.mem_setReg (s : State) (n : RegName) (v : Qword) : (s.setReg n v).mem = s.mem := rfl
@[simp] theorem State.runState_setReg (s : State) (n : RegName) (v : Qword) : (s.setReg n v).runState = s.runState := rfl
@[simp] theorem State.fault_setReg (s : State) (n : RegName) (v : Qword) : (s.setReg n v).fault = s.fault := rfl
@[simp] theorem State.capacity_setReg (s : State) (n : RegName) (v : Qword) : (s.setReg n v).capacity = s.capacity := rfl
@[simp] theorem State.strictRegs_setReg (s : State) (n : RegName) (v : Qword) : (s.setReg n v).strictRegs = s.strictRegs := rfl
@[simp] theorem State.codeOk_setReg (s : State) (n : RegName) (v : Qword) (c : Byte) : (s.setReg n v).codeOk c = s.codeOk c := rfl
@[simp] theorem State.setReg_setReg (s : State) (n : RegName) (v v' : Qword) :
    (s.setReg n v).setReg n v' = s.setReg n v' := by simp [State.setReg]
@[simp] theorem State.setReg_reg (s : State) (n : RegName) : s.setReg n (s.reg n) = s := by
  simp [State.setReg, State.reg]
@[simp] theorem State.pc_setReg_pc (s : State) (v : Qword) : (s.setReg .programCounter v).pc = v :=
  State.reg_setReg_self _ _ _

/-! ### setCode -/

theorem State.setCode_code (s : State) (n : RegName) (v : Qword) : s.setCode n.code v = s.setReg n v := by
  simp [State.setCode]
theorem State.codeValue_code (s : State) (n : RegName) : s.codeValue n.code = s.reg n := by
  simp [State.codeValue]

/-- After a write of code `c`, a register holds the value written when `c` is its code, its old value otherwise. -/
theorem State.reg_setCode (s : State) (c : Byte) (v : Qword) (n : RegName) :
    (s.setCode c v).reg n = if n.code = c then v else s.reg n := by
  unfold State.setCode
  split
  · rename_i n' h
    have hc := RegName.code_of_ofCode h
    subst hc
    rw [State.reg_setReg]
    by_cases hn : n = n'
    · simp [hn]
    · rw [if_neg hn, if_neg (fun h => hn (RegName.code_injective h))]
  · rename_i h
    rw [if_neg]
    rintro rfl
    simp at h

@[simp] theorem State.mem_setCode (s : State) (c : Byte) (v : Qword) : (s.setCode c v).mem = s.mem := by
  unfold State.setCode; split <;> rfl
@[simp] theorem State.runState_setCode (s : State) (c : Byte) (v : Qword) : (s.setCode c v).runState = s.runState := by
  unfold State.setCode; split <;> rfl
@[simp] theorem State.fault_setCode (s : State) (c : Byte) (v : Qword) : (s.setCode c v).fault = s.fault := by
  unfold State.setCode; split <;> rfl
@[simp] theorem State.capacity_setCode (s : State) (c : Byte) (v : Qword) : (s.setCode c v).capacity = s.capacity := by
  unfold State.setCode; split <;> rfl
@[simp] theorem State.strictRegs_setCode (s : State) (c : Byte) (v : Qword) : (s.setCode c v).strictRegs = s.strictRegs := by
  unfold State.setCode; split <;> rfl

theorem State.setCode_unknown (s : State) {c : Byte} (v : Qword) (h : 0x10 < c.toNat) : s.setCode c v = s := by
  simp [State.setCode, RegName.ofCode_eq_none h]
theorem State.codeValue_unknown (s : State) {c : Byte} (h : 0x10 < c.toNat) : s.codeValue c = 0 := by
  simp [State.codeValue, RegName.ofCode_eq_none h]
theorem State.codeValue_setCode_self (s : State) {c : Byte} (v : Qword) (h : c.toNat ≤ 0x10) :
    (s.setCode c v).codeValue c = v := by
  obtain ⟨n, hn, rfl⟩ := RegName.ofCode_eq_some h
  simp [State.setCode_code, State.codeValue_code]

/-- The register file answers for a code exactly when it names a register or the session is tolerant. -/
theorem State.codeOk_iff (s : State) (c : Byte) : s.codeOk c = true ↔ c.toNat ≤ 0x10 ∨ s.strictRegs = false := by
  simp [State.codeOk, RegName.ofCode_isSome]

theorem State.codeOk_eq_false (s : State) (c : Byte) : s.codeOk c = false ↔ 0x10 < c.toNat ∧ s.strictRegs = true := by
  simp [State.codeOk, RegName.ofCode_isSome]

/-! ### raiseFault, startRun, halt, advancePc -/

@[simp] theorem regs_raiseFault (f : Fault) (s : State) : (raiseFault f s).regs = s.regs := rfl
@[simp] theorem reg_raiseFault (f : Fault) (s : State) (n : RegName) : (raiseFault f s).reg n = s.reg n := rfl
@[simp] theorem pc_raiseFault (f : Fault) (s : State) : (raiseFault f s).pc = s.pc := rfl
@[simp] theorem mem_raiseFault (f : Fault) (s : State) : (raiseFault f s).mem = s.mem := rfl
@[simp] theorem runState_raiseFault (f : Fault) (s : State) : (raiseFault f s).runState = .error := rfl
@[simp] theorem fault_raiseFault (f : Fault) (s : State) : (raiseFault f s).fault = some f := rfl
@[simp] theorem capacity_raiseFault (f : Fault) (s : State) : (raiseFault f s).capacity = s.capacity := rfl
@[simp] theorem strictRegs_raiseFault (f : Fault) (s : State) : (raiseFault f s).strictRegs = s.strictRegs := rfl

@[simp] theorem regs_startRun (s : State) : (startRun s).regs = s.regs := rfl
@[simp] theorem mem_startRun (s : State) : (startRun s).mem = s.mem := rfl
@[simp] theorem runState_startRun (s : State) : (startRun s).runState = .running := rfl
@[simp] theorem fault_startRun (s : State) : (startRun s).fault = s.fault := rfl
@[simp] theorem capacity_startRun (s : State) : (startRun s).capacity = s.capacity := rfl
@[simp] theorem strictRegs_startRun (s : State) : (startRun s).strictRegs = s.strictRegs := rfl

@[simp] theorem regs_halt (s : State) : (halt s).regs = s.regs := rfl
@[simp] theorem mem_halt (s : State) : (halt s).mem = s.mem := rfl
@[simp] theorem runState_halt (s : State) : (halt s).runState = .halted := rfl
@[simp] theorem fault_halt (s : State) : (halt s).fault = s.fault := rfl
@[simp] theorem capacity_halt (s : State) : (halt s).capacity = s.capacity := rfl
@[simp] theorem strictRegs_halt (s : State) : (halt s).strictRegs = s.strictRegs := rfl

theorem State.reg_advancePc (s : State) (k : Nat) (n : RegName) :
    (s.advancePc k).reg n = if n = .programCounter then s.pc + BitVec.ofNat 64 k else s.reg n := State.reg_setReg _ _ _ _
@[simp] theorem State.pc_advancePc (s : State) (k : Nat) : (s.advancePc k).pc = s.pc + BitVec.ofNat 64 k :=
  State.pc_setReg_pc _ _
@[simp] theorem State.mem_advancePc (s : State) (k : Nat) : (s.advancePc k).mem = s.mem := rfl
@[simp] theorem State.runState_advancePc (s : State) (k : Nat) : (s.advancePc k).runState = s.runState := rfl
@[simp] theorem State.fault_advancePc (s : State) (k : Nat) : (s.advancePc k).fault = s.fault := rfl
@[simp] theorem State.capacity_advancePc (s : State) (k : Nat) : (s.advancePc k).capacity = s.capacity := rfl
@[simp] theorem State.strictRegs_advancePc (s : State) (k : Nat) : (s.advancePc k).strictRegs = s.strictRegs := rfl

end Sys2Proof.Machine
end

