-- ==== Sys2Proof/Laws/Ops.lean ====
section
/-!
SUPPORT. For each shared operation, what it answers and everything it can do.
-/

namespace Sys2Proof.Machine

/-! ### Registers -/

theorem regGet_ok {s : State} {c : Byte} (h : s.codeOk c = true) : regGet s c = .ok (s.codeValue c) := by
  simp [regGet, h]
theorem regGet_error {s : State} {c : Byte} (h : s.codeOk c = false) : regGet s c = .error .invalidRegisterCode := by
  simp [regGet, h]
theorem regSet_ok {s : State} {c : Byte} (v : Qword) (h : s.codeOk c = true) : regSet s c v = .ok (s.setCode c v) := by
  simp [regSet, h]
theorem regSet_error {s : State} {c : Byte} (v : Qword) (h : s.codeOk c = false) :
    regSet s c v = .error .invalidRegisterCode := by
  simp [regSet, h]

/-- All `RegGet` can do. -/
theorem regGet_cases (s : State) (c : Byte) :
    (s.codeOk c = true ∧ regGet s c = .ok (s.codeValue c)) ∨
    (s.codeOk c = false ∧ regGet s c = .error .invalidRegisterCode) := by
  cases h : s.codeOk c
  · exact .inr ⟨rfl, regGet_error h⟩
  · exact .inl ⟨rfl, regGet_ok h⟩

/-- All `RegSet` can do. -/
theorem regSet_cases (s : State) (c : Byte) (v : Qword) :
    (s.codeOk c = true ∧ regSet s c v = .ok (s.setCode c v)) ∨
    (s.codeOk c = false ∧ regSet s c v = .error .invalidRegisterCode) := by
  cases h : s.codeOk c
  · exact .inr ⟨rfl, regSet_error v h⟩
  · exact .inl ⟨rfl, regSet_ok v h⟩

theorem regMergeLow_ok {s : State} {c : Byte} (w : Width) (v : Qword) (h : s.codeOk c = true) :
    regMergeLow s c w v = .ok (s.setCode c (mergeLow w (s.codeValue c) v)) := by
  simp [regMergeLow, regGet_ok h, regSet_ok _ h]
theorem regMergeLow_error {s : State} {c : Byte} (w : Width) (v : Qword) (h : s.codeOk c = false) :
    regMergeLow s c w v = .error .invalidRegisterCode := by
  simp [regMergeLow, regGet_error h]

/-! ### Operands -/

theorem srcValue_reg_ok {s : State} {c : Byte} (w : Width) (h : s.codeOk c = true) :
    srcValue s (.reg c) w = .ok (trunc w (s.codeValue c)) := by simp [srcValue, regGet_ok h]
theorem srcValue_reg_error {s : State} {c : Byte} (w : Width) (h : s.codeOk c = false) :
    srcValue s (.reg c) w = .error .invalidRegisterCode := by simp [srcValue, regGet_error h]
@[simp] theorem srcValue_imm (s : State) (w w' : Width) (v : Qword) : srcValue s (.imm w' v) w = .ok v := rfl
theorem addrValue_reg (s : State) (c : Byte) : addrValue s (.reg c) = regGet s c := rfl
@[simp] theorem addrValue_imm (s : State) (w' : Width) (v : Qword) : addrValue s (.imm w' v) = .ok v := rfl

/-- The only fault of a source operand is the register file's. -/
theorem srcValue_error {s : State} {op : Operand} {w : Width} {f : Fault} (h : srcValue s op w = .error f) :
    f = .invalidRegisterCode := by
  cases op with
  | imm => cases h
  | reg c =>
    cases hc : s.codeOk c
    · rw [srcValue_reg_error w hc] at h
      exact (Except.error.inj h).symm
    · rw [srcValue_reg_ok w hc] at h
      cases h

/-- The only fault of an address operand is the register file's. -/
theorem addrValue_error {s : State} {op : Operand} {f : Fault} (h : addrValue s op = .error f) :
    f = .invalidRegisterCode := by
  cases op with
  | imm => cases h
  | reg c =>
    rw [addrValue_reg] at h
    cases hc : s.codeOk c
    · rw [regGet_error hc] at h
      exact (Except.error.inj h).symm
    · rw [regGet_ok hc] at h
      cases h

/-! ### Memory accesses -/

theorem State.inBounds_iff (s : State) (addr : Qword) (w : Width) :
    s.inBounds addr w = true ↔ addr.toNat + w.bytes ≤ s.capacity := by simp [State.inBounds]
theorem State.inBounds_eq_false (s : State) (addr : Qword) (w : Width) :
    s.inBounds addr w = false ↔ s.capacity < addr.toNat + w.bytes := by simp [State.inBounds]

theorem memRead_ok {s : State} {addr : Qword} {w : Width} (h : addr.toNat + w.bytes ≤ s.capacity) :
    memRead s addr w = .ok (BitVec.ofNat 64 (joinLE (s.mem.bytesFrom addr.toNat w.bytes))) := by
  simp [memRead, State.inBounds, h]
theorem memRead_error {s : State} {addr : Qword} {w : Width} (h : s.capacity < addr.toNat + w.bytes) :
    memRead s addr w = .error .outOfBounds := by
  simp [memRead, State.inBounds, Nat.not_le.2 h]
theorem memWrite_ok {s : State} {addr : Qword} {w : Width} (v : Qword) (h : addr.toNat + w.bytes ≤ s.capacity) :
    memWrite s addr w v = .ok { s with mem := s.mem.setBytes addr.toNat (splitLE w.bytes v.toNat) } := by
  simp [memWrite, State.inBounds, h]
theorem memWrite_error {s : State} {addr : Qword} {w : Width} (v : Qword) (h : s.capacity < addr.toNat + w.bytes) :
    memWrite s addr w v = .error .outOfBounds := by
  simp [memWrite, State.inBounds, Nat.not_le.2 h]

/-- The value of a typed read is below 256 to its number of bytes, so that 64 bits hold it. -/
theorem joinLE_bytesFrom_lt (m : Memory) (a : Nat) (w : Width) : joinLE (m.bytesFrom a w.bytes) < 2 ^ 64 := by
  have h := joinLE_lt (m.bytesFrom a w.bytes)
  rw [Memory.length_bytesFrom] at h
  refine Nat.lt_of_lt_of_le h ?_
  cases w <;> decide

/-- All a store can do when it answers a state. -/
theorem memWrite_inv {s t : State} {addr : Qword} {w : Width} {v : Qword} (h : memWrite s addr w v = .ok t) :
    addr.toNat + w.bytes ≤ s.capacity ∧
    t = { s with mem := s.mem.setBytes addr.toNat (splitLE w.bytes v.toNat) } := by
  by_cases hb : addr.toNat + w.bytes ≤ s.capacity
  · rw [memWrite_ok v hb] at h
    exact ⟨hb, (Except.ok.inj h).symm⟩
  · rw [memWrite_error v (by omega)] at h
    cases h

/-- Every memory operation keeps the canonical form; one byte and several are `Memory.wf_setByte`, `Memory.wf_setBytes`. -/
theorem memWrite_wf {s t : State} {addr : Qword} {w : Width} {v : Qword} (hw : Memory.wf s.mem = true)
    (h : memWrite s addr w v = .ok t) : Memory.wf t.mem = true := by
  obtain ⟨-, rfl⟩ := memWrite_inv h
  exact Memory.wf_setBytes hw _ _

theorem loadBootImage_ok {s : State} {image : List Byte} (h : image.length ≤ s.capacity) :
    loadBootImage s image =
      .ok ({ s with mem := s.mem.setBytes (s.capacity - image.length) image }, s.capacity - image.length) := by
  simp [loadBootImage, Nat.not_lt.2 h]

theorem loadBootImage_error {s : State} {image : List Byte} (h : s.capacity < image.length) :
    loadBootImage s image = .error .imageTooLarge := by
  simp [loadBootImage, h]

theorem loadBootImage_wf {s t : State} {image : List Byte} {offset : Nat} (hw : Memory.wf s.mem = true)
    (h : loadBootImage s image = .ok (t, offset)) : Memory.wf t.mem = true := by
  by_cases hl : image.length ≤ s.capacity
  · rw [loadBootImage_ok hl] at h
    cases h
    exact Memory.wf_setBytes hw _ _
  · rw [loadBootImage_error (by omega)] at h
    cases h

/-- A word placed from outside keeps the canonical form too. -/
theorem placeInstr_wf {s : State} (hw : Memory.wf s.mem = true) (bytes : List Byte) :
    Memory.wf (s.placeInstr bytes).mem = true := Memory.wf_setBytes hw _ _

/-- Memory after reset is in canonical form. -/
theorem reset_mem_wf : Memory.wf State.reset.mem = true := rfl

/-! ### finish -/

@[simp] theorem finish_ok (s t : State) : finish s (.ok t) = .next t := rfl
@[simp] theorem finish_error (s : State) (f : Fault) : finish s (.error f) = .next (raiseFault f s) := rfl

end Sys2Proof.Machine
end

