-- ==== Sys2Proof/Laws/Exec.lean ====
section
/-!
SUPPORT. Everything an instruction can do, once per shared operation, and once for all instructions (`exec_cases`).
-/

namespace Sys2Proof.Machine

/-! ### Which shared operation each instruction is -/

variable (s : State)

@[simp] theorem exec_movBRToR (ss : Byte) (dd : Byte) :
    exec (.movBRToR ss dd) s = moveNarrow .byte (.reg ss) dd s := rfl
@[simp] theorem exec_movWRToR (ss : Byte) (dd : Byte) :
    exec (.movWRToR ss dd) s = moveNarrow .word (.reg ss) dd s := rfl
@[simp] theorem exec_movDRToR (ss : Byte) (dd : Byte) :
    exec (.movDRToR ss dd) s = moveNarrow .dword (.reg ss) dd s := rfl
@[simp] theorem exec_movR (ss : Byte) (dd : Byte) :
    exec (.movR ss dd) s = moveFull (.reg ss) dd s := rfl
@[simp] theorem exec_movBIToR (imm : BitVec 8) (dd : Byte) :
    exec (.movBIToR imm dd) s = moveNarrow .byte (.imm .byte (imm.setWidth 64)) dd s := rfl
@[simp] theorem exec_movWIToR (imm : BitVec 16) (dd : Byte) :
    exec (.movWIToR imm dd) s = moveNarrow .word (.imm .word (imm.setWidth 64)) dd s := rfl
@[simp] theorem exec_movDIToR (imm : BitVec 32) (dd : Byte) :
    exec (.movDIToR imm dd) s = moveNarrow .dword (.imm .dword (imm.setWidth 64)) dd s := rfl
@[simp] theorem exec_movI (imm : Qword) (dd : Byte) :
    exec (.movI imm dd) s = moveFull (.imm .qword imm) dd s := rfl
@[simp] theorem exec_saveBRToR (ss : Byte) (aa : Byte) :
    exec (.saveBRToR ss aa) s = save .byte (.reg ss) (.reg aa) s := rfl
@[simp] theorem exec_saveWRToR (ss : Byte) (aa : Byte) :
    exec (.saveWRToR ss aa) s = save .word (.reg ss) (.reg aa) s := rfl
@[simp] theorem exec_saveDRToR (ss : Byte) (aa : Byte) :
    exec (.saveDRToR ss aa) s = save .dword (.reg ss) (.reg aa) s := rfl
@[simp] theorem exec_saveQRToR (ss : Byte) (aa : Byte) :
    exec (.saveQRToR ss aa) s = save .qword (.reg ss) (.reg aa) s := rfl
@[simp] theorem exec_saveBIToR (imm : BitVec 8) (aa : Byte) :
    exec (.saveBIToR imm aa) s = save .byte (.imm .byte (imm.setWidth 64)) (.reg aa) s := rfl
@[simp] theorem exec_saveWIToR (imm : BitVec 16) (aa : Byte) :
    exec (.saveWIToR imm aa) s = save .word (.imm .word (imm.setWidth 64)) (.reg aa) s := rfl
@[simp] theorem exec_saveDIToR (imm : BitVec 32) (aa : Byte) :
    exec (.saveDIToR imm aa) s = save .dword (.imm .dword (imm.setWidth 64)) (.reg aa) s := rfl
@[simp] theorem exec_saveQIToR (imm : Qword) (aa : Byte) :
    exec (.saveQIToR imm aa) s = save .qword (.imm .qword imm) (.reg aa) s := rfl
@[simp] theorem exec_saveBRToI (ss : Byte) (addr : Qword) :
    exec (.saveBRToI ss addr) s = save .byte (.reg ss) (.imm .qword addr) s := rfl
@[simp] theorem exec_saveWRToI (ss : Byte) (addr : Qword) :
    exec (.saveWRToI ss addr) s = save .word (.reg ss) (.imm .qword addr) s := rfl
@[simp] theorem exec_saveDRToI (ss : Byte) (addr : Qword) :
    exec (.saveDRToI ss addr) s = save .dword (.reg ss) (.imm .qword addr) s := rfl
@[simp] theorem exec_saveQRToI (ss : Byte) (addr : Qword) :
    exec (.saveQRToI ss addr) s = save .qword (.reg ss) (.imm .qword addr) s := rfl
@[simp] theorem exec_saveBIToI (imm : BitVec 8) (addr : Qword) :
    exec (.saveBIToI imm addr) s = save .byte (.imm .byte (imm.setWidth 64)) (.imm .qword addr) s := rfl
@[simp] theorem exec_saveWIToI (imm : BitVec 16) (addr : Qword) :
    exec (.saveWIToI imm addr) s = save .word (.imm .word (imm.setWidth 64)) (.imm .qword addr) s := rfl
@[simp] theorem exec_saveDIToI (imm : BitVec 32) (addr : Qword) :
    exec (.saveDIToI imm addr) s = save .dword (.imm .dword (imm.setWidth 64)) (.imm .qword addr) s := rfl
@[simp] theorem exec_saveQIToI (imm : Qword) (addr : Qword) :
    exec (.saveQIToI imm addr) s = save .qword (.imm .qword imm) (.imm .qword addr) s := rfl
@[simp] theorem exec_loadBRToR (aa : Byte) (dd : Byte) :
    exec (.loadBRToR aa dd) s = load .byte (.reg aa) dd s := rfl
@[simp] theorem exec_loadWRToR (aa : Byte) (dd : Byte) :
    exec (.loadWRToR aa dd) s = load .word (.reg aa) dd s := rfl
@[simp] theorem exec_loadDRToR (aa : Byte) (dd : Byte) :
    exec (.loadDRToR aa dd) s = load .dword (.reg aa) dd s := rfl
@[simp] theorem exec_loadQRToR (aa : Byte) (dd : Byte) :
    exec (.loadQRToR aa dd) s = load .qword (.reg aa) dd s := rfl
@[simp] theorem exec_loadBIToR (addr : Qword) (dd : Byte) :
    exec (.loadBIToR addr dd) s = load .byte (.imm .qword addr) dd s := rfl
@[simp] theorem exec_loadWIToR (addr : Qword) (dd : Byte) :
    exec (.loadWIToR addr dd) s = load .word (.imm .qword addr) dd s := rfl
@[simp] theorem exec_loadDIToR (addr : Qword) (dd : Byte) :
    exec (.loadDIToR addr dd) s = load .dword (.imm .qword addr) dd s := rfl
@[simp] theorem exec_loadQIToR (addr : Qword) (dd : Byte) :
    exec (.loadQIToR addr dd) s = load .qword (.imm .qword addr) dd s := rfl
@[simp] theorem exec_inc :
    exec .inc s = .next (s.setReg .rcount (s.reg .rcount + 1)) := rfl
@[simp] theorem exec_dec :
    exec .dec s = .next (s.setReg .rcount (s.reg .rcount - 1)) := rfl

/-! ### What each can do -/

/-- All a narrow Move can do. -/
theorem moveNarrow_cases (w : Width) (src : Operand) (dd : Byte) :
    (∃ v, srcValue s src w = .ok v ∧ s.codeOk dd = true ∧
      moveNarrow w src dd s = .next (s.setCode dd (mergeLow w (s.codeValue dd) v))) ∨
    (∃ f, (f = .outOfBounds ∨ f = .invalidRegisterCode) ∧ moveNarrow w src dd s = .next (raiseFault f s)) := by
  unfold moveNarrow
  cases hs : srcValue s src w with
  | error f => exact .inr ⟨f, .inr (srcValue_error hs), rfl⟩
  | ok v =>
    cases hd : s.codeOk dd
    · exact .inr ⟨_, .inr rfl, by simp [regMergeLow_error w v hd]⟩
    · exact .inl ⟨v, rfl, rfl, by simp [regMergeLow_ok w v hd]⟩

/-- All a qword Move can do. -/
theorem moveFull_cases (src : Operand) (dd : Byte) :
    (∃ v, srcValue s src .qword = .ok v ∧ s.codeOk dd = true ∧ moveFull src dd s = .next (s.setCode dd v)) ∨
    (∃ f, (f = .outOfBounds ∨ f = .invalidRegisterCode) ∧ moveFull src dd s = .next (raiseFault f s)) := by
  unfold moveFull
  cases hs : srcValue s src .qword with
  | error f => exact .inr ⟨f, .inr (srcValue_error hs), rfl⟩
  | ok v =>
    cases hd : s.codeOk dd
    · exact .inr ⟨_, .inr rfl, by simp [regSet_error v hd]⟩
    · exact .inl ⟨v, rfl, rfl, by simp [regSet_ok v hd]⟩

/-- All a Save can do. -/
theorem save_cases (w : Width) (src dst : Operand) :
    (∃ v addr, srcValue s src w = .ok v ∧ addrValue s dst = .ok addr ∧ addr.toNat + w.bytes ≤ s.capacity ∧
      save w src dst s = .next { s with mem := s.mem.setBytes addr.toNat (splitLE w.bytes v.toNat) }) ∨
    (∃ f, (f = .outOfBounds ∨ f = .invalidRegisterCode) ∧ save w src dst s = .next (raiseFault f s)) := by
  unfold save
  cases hs : srcValue s src w with
  | error f => exact .inr ⟨f, .inr (srcValue_error hs), rfl⟩
  | ok v =>
    cases ha : addrValue s dst with
    | error f => exact .inr ⟨f, .inr (addrValue_error ha), rfl⟩
    | ok addr =>
      by_cases hb : addr.toNat + w.bytes ≤ s.capacity
      · exact .inl ⟨v, addr, rfl, rfl, hb, by simp [memWrite_ok v hb]⟩
      · exact .inr ⟨_, .inl rfl, by simp [memWrite_error v (Nat.not_le.1 hb)]⟩

/-- All a Load can do. -/
theorem load_cases (w : Width) (src : Operand) (dd : Byte) :
    (∃ addr, addrValue s src = .ok addr ∧ addr.toNat + w.bytes ≤ s.capacity ∧ s.codeOk dd = true ∧
      load w src dd s = .next (s.setCode dd (BitVec.ofNat 64 (joinLE (s.mem.bytesFrom addr.toNat w.bytes))))) ∨
    (∃ f, (f = .outOfBounds ∨ f = .invalidRegisterCode) ∧ load w src dd s = .next (raiseFault f s)) := by
  unfold load
  cases ha : addrValue s src with
  | error f => exact .inr ⟨f, .inr (addrValue_error ha), rfl⟩
  | ok addr =>
    by_cases hb : addr.toNat + w.bytes ≤ s.capacity
    · cases hd : s.codeOk dd
      · exact .inr ⟨_, .inr rfl, by simp [memRead_ok hb, regSet_error _ hd]⟩
      · exact .inl ⟨addr, rfl, hb, rfl, by simp [memRead_ok hb, regSet_ok _ hd]⟩
    · exact .inr ⟨_, .inl rfl, by simp [memRead_error (Nat.not_le.1 hb)]⟩

/-- All an instruction can do: write its destination register, store a span inside memory, move RCOUNT, or raise a fault on
the state the execute phase found. It always answers a next state. -/
theorem exec_cases (i : Instr) :
    (∃ dd v, s.codeOk dd = true ∧ destCode i = some dd ∧ exec i s = .next (s.setCode dd v)) ∨
    (∃ dst w addr v, storeOperand i = some (dst, w) ∧ addrValue s dst = .ok addr ∧ addr.toNat + w.bytes ≤ s.capacity ∧
      exec i s = .next { s with mem := s.mem.setBytes addr.toNat (splitLE w.bytes v) }) ∨
    (∃ v, (i = .inc ∨ i = .dec) ∧ exec i s = .next (s.setReg .rcount v)) ∨
    (∃ f, (f = .outOfBounds ∨ f = .invalidRegisterCode) ∧ exec i s = .next (raiseFault f s)) := by
  have move (w src dd) (h : exec i s = moveNarrow w src dd s) (hd : destCode i = some dd) :
      (∃ dd v, s.codeOk dd = true ∧ destCode i = some dd ∧ exec i s = .next (s.setCode dd v)) ∨
        ∃ f, (f = .outOfBounds ∨ f = .invalidRegisterCode) ∧ exec i s = .next (raiseFault f s) := by
    rcases moveNarrow_cases s w src dd with ⟨v, -, ho, he⟩ | ⟨f, hf, he⟩
    · exact .inl ⟨dd, _, ho, hd, h.trans he⟩
    · exact .inr ⟨f, hf, h.trans he⟩
  have full (src dd) (h : exec i s = moveFull src dd s) (hd : destCode i = some dd) :
      (∃ dd v, s.codeOk dd = true ∧ destCode i = some dd ∧ exec i s = .next (s.setCode dd v)) ∨
        ∃ f, (f = .outOfBounds ∨ f = .invalidRegisterCode) ∧ exec i s = .next (raiseFault f s) := by
    rcases moveFull_cases s src dd with ⟨v, -, ho, he⟩ | ⟨f, hf, he⟩
    · exact .inl ⟨dd, _, ho, hd, h.trans he⟩
    · exact .inr ⟨f, hf, h.trans he⟩
  have ld (w src dd) (h : exec i s = load w src dd s) (hd : destCode i = some dd) :
      (∃ dd v, s.codeOk dd = true ∧ destCode i = some dd ∧ exec i s = .next (s.setCode dd v)) ∨
        ∃ f, (f = .outOfBounds ∨ f = .invalidRegisterCode) ∧ exec i s = .next (raiseFault f s) := by
    rcases load_cases s w src dd with ⟨a, -, -, ho, he⟩ | ⟨f, hf, he⟩
    · exact .inl ⟨dd, _, ho, hd, h.trans he⟩
    · exact .inr ⟨f, hf, h.trans he⟩
  have sv (w src dst) (h : exec i s = save w src dst s) (hd : storeOperand i = some (dst, w)) :
      (∃ dst w addr v, storeOperand i = some (dst, w) ∧ addrValue s dst = .ok addr ∧ addr.toNat + w.bytes ≤ s.capacity ∧
      exec i s = .next { s with mem := s.mem.setBytes addr.toNat (splitLE w.bytes v) }) ∨
        ∃ f, (f = .outOfBounds ∨ f = .invalidRegisterCode) ∧ exec i s = .next (raiseFault f s) := by
    rcases save_cases s w src dst with ⟨v, a, -, ha, hb, he⟩ | ⟨f, hf, he⟩
    · exact .inl ⟨dst, w, a, _, hd, ha, hb, h.trans he⟩
    · exact .inr ⟨f, hf, h.trans he⟩
  have reg3 {A B C D : Prop} (h : A ∨ D) : A ∨ B ∨ C ∨ D := h.elim .inl (.inr ∘ .inr ∘ .inr)
  have mem3 {A B C D : Prop} (h : B ∨ D) : A ∨ B ∨ C ∨ D := .inr (h.elim .inl (.inr ∘ .inr))
  cases i with
  | movBRToR => exact reg3 (move _ _ _ (exec_movBRToR ..) rfl)
  | movWRToR => exact reg3 (move _ _ _ (exec_movWRToR ..) rfl)
  | movDRToR => exact reg3 (move _ _ _ (exec_movDRToR ..) rfl)
  | movBIToR => exact reg3 (move _ _ _ (exec_movBIToR ..) rfl)
  | movWIToR => exact reg3 (move _ _ _ (exec_movWIToR ..) rfl)
  | movDIToR => exact reg3 (move _ _ _ (exec_movDIToR ..) rfl)
  | movR => exact reg3 (full _ _ (exec_movR ..) rfl)
  | movI => exact reg3 (full _ _ (exec_movI ..) rfl)
  | saveBRToR => exact mem3 (sv _ _ _ (exec_saveBRToR ..) rfl)
  | saveWRToR => exact mem3 (sv _ _ _ (exec_saveWRToR ..) rfl)
  | saveDRToR => exact mem3 (sv _ _ _ (exec_saveDRToR ..) rfl)
  | saveQRToR => exact mem3 (sv _ _ _ (exec_saveQRToR ..) rfl)
  | saveBIToR => exact mem3 (sv _ _ _ (exec_saveBIToR ..) rfl)
  | saveWIToR => exact mem3 (sv _ _ _ (exec_saveWIToR ..) rfl)
  | saveDIToR => exact mem3 (sv _ _ _ (exec_saveDIToR ..) rfl)
  | saveQIToR => exact mem3 (sv _ _ _ (exec_saveQIToR ..) rfl)
  | saveBRToI => exact mem3 (sv _ _ _ (exec_saveBRToI ..) rfl)
  | saveWRToI => exact mem3 (sv _ _ _ (exec_saveWRToI ..) rfl)
  | saveDRToI => exact mem3 (sv _ _ _ (exec_saveDRToI ..) rfl)
  | saveQRToI => exact mem3 (sv _ _ _ (exec_saveQRToI ..) rfl)
  | saveBIToI => exact mem3 (sv _ _ _ (exec_saveBIToI ..) rfl)
  | saveWIToI => exact mem3 (sv _ _ _ (exec_saveWIToI ..) rfl)
  | saveDIToI => exact mem3 (sv _ _ _ (exec_saveDIToI ..) rfl)
  | saveQIToI => exact mem3 (sv _ _ _ (exec_saveQIToI ..) rfl)
  | loadBRToR => exact reg3 (ld _ _ _ (exec_loadBRToR ..) rfl)
  | loadWRToR => exact reg3 (ld _ _ _ (exec_loadWRToR ..) rfl)
  | loadDRToR => exact reg3 (ld _ _ _ (exec_loadDRToR ..) rfl)
  | loadQRToR => exact reg3 (ld _ _ _ (exec_loadQRToR ..) rfl)
  | loadBIToR => exact reg3 (ld _ _ _ (exec_loadBIToR ..) rfl)
  | loadWIToR => exact reg3 (ld _ _ _ (exec_loadWIToR ..) rfl)
  | loadDIToR => exact reg3 (ld _ _ _ (exec_loadDIToR ..) rfl)
  | loadQIToR => exact reg3 (ld _ _ _ (exec_loadQIToR ..) rfl)
  | inc => exact .inr (.inr (.inl ⟨_, .inl rfl, rfl⟩))
  | dec => exact .inr (.inr (.inl ⟨_, .inr rfl, rfl⟩))

end Sys2Proof.Machine
end

