-- ==== Sys2Proof/Laws/PerInstr.lean ====
section
/-!
SUPPORT. Statements about every instruction as syntax, one lemma per constructor.
-/

namespace Sys2Proof.Laws.Shape

/-- The instruction is well formed, and its encoding has the length of its row's format and the row's opcode as its first byte
(30_encoding.md R159, R160, R164). -/
def Statement (i : Instr) : Prop :=
  i.wellFormed = true ∧
  ∃ r, i.mnemonic.row? = some r ∧ (encode i).length = r.format.length ∧ (encode i).head? = some r.opcode

/-- Well-formedness and length follow from the kinds of the operands. -/
theorem of_operands (i : Instr) : Statement i := by
  obtain ⟨hk, hf⟩ := i.operands_wellFormed
  obtain ⟨r, hr, -, ho, -, hs⟩ := i.mnemonic.row_spec
  refine ⟨?_, r, hr, ?_, by simp [encode, ho]⟩
  · rw [Instr.wellFormed, Instr.written, Written.wellFormed, hf, hk, decide_eq_true rfl, Bool.and_self]
  · rw [encode, List.length_cons, Operand.length_flatMap_encode, hk, Format.length, hs, Nat.add_comm]

theorem movBRToR (ss : Byte) (dd : Byte) : Statement (.movBRToR ss dd) := of_operands _
theorem movWRToR (ss : Byte) (dd : Byte) : Statement (.movWRToR ss dd) := of_operands _
theorem movDRToR (ss : Byte) (dd : Byte) : Statement (.movDRToR ss dd) := of_operands _
theorem movR (ss : Byte) (dd : Byte) : Statement (.movR ss dd) := of_operands _
theorem movBIToR (imm : BitVec 8) (dd : Byte) : Statement (.movBIToR imm dd) := of_operands _
theorem movWIToR (imm : BitVec 16) (dd : Byte) : Statement (.movWIToR imm dd) := of_operands _
theorem movDIToR (imm : BitVec 32) (dd : Byte) : Statement (.movDIToR imm dd) := of_operands _
theorem movI (imm : Qword) (dd : Byte) : Statement (.movI imm dd) := of_operands _
theorem saveBRToR (ss : Byte) (aa : Byte) : Statement (.saveBRToR ss aa) := of_operands _
theorem saveWRToR (ss : Byte) (aa : Byte) : Statement (.saveWRToR ss aa) := of_operands _
theorem saveDRToR (ss : Byte) (aa : Byte) : Statement (.saveDRToR ss aa) := of_operands _
theorem saveQRToR (ss : Byte) (aa : Byte) : Statement (.saveQRToR ss aa) := of_operands _
theorem saveBIToR (imm : BitVec 8) (aa : Byte) : Statement (.saveBIToR imm aa) := of_operands _
theorem saveWIToR (imm : BitVec 16) (aa : Byte) : Statement (.saveWIToR imm aa) := of_operands _
theorem saveDIToR (imm : BitVec 32) (aa : Byte) : Statement (.saveDIToR imm aa) := of_operands _
theorem saveQIToR (imm : Qword) (aa : Byte) : Statement (.saveQIToR imm aa) := of_operands _
theorem saveBRToI (ss : Byte) (addr : Qword) : Statement (.saveBRToI ss addr) := of_operands _
theorem saveWRToI (ss : Byte) (addr : Qword) : Statement (.saveWRToI ss addr) := of_operands _
theorem saveDRToI (ss : Byte) (addr : Qword) : Statement (.saveDRToI ss addr) := of_operands _
theorem saveQRToI (ss : Byte) (addr : Qword) : Statement (.saveQRToI ss addr) := of_operands _
theorem saveBIToI (imm : BitVec 8) (addr : Qword) : Statement (.saveBIToI imm addr) := of_operands _
theorem saveWIToI (imm : BitVec 16) (addr : Qword) : Statement (.saveWIToI imm addr) := of_operands _
theorem saveDIToI (imm : BitVec 32) (addr : Qword) : Statement (.saveDIToI imm addr) := of_operands _
theorem saveQIToI (imm : Qword) (addr : Qword) : Statement (.saveQIToI imm addr) := of_operands _
theorem loadBRToR (aa : Byte) (dd : Byte) : Statement (.loadBRToR aa dd) := of_operands _
theorem loadWRToR (aa : Byte) (dd : Byte) : Statement (.loadWRToR aa dd) := of_operands _
theorem loadDRToR (aa : Byte) (dd : Byte) : Statement (.loadDRToR aa dd) := of_operands _
theorem loadQRToR (aa : Byte) (dd : Byte) : Statement (.loadQRToR aa dd) := of_operands _
theorem loadBIToR (addr : Qword) (dd : Byte) : Statement (.loadBIToR addr dd) := of_operands _
theorem loadWIToR (addr : Qword) (dd : Byte) : Statement (.loadWIToR addr dd) := of_operands _
theorem loadDIToR (addr : Qword) (dd : Byte) : Statement (.loadDIToR addr dd) := of_operands _
theorem loadQIToR (addr : Qword) (dd : Byte) : Statement (.loadQIToR addr dd) := of_operands _
theorem inc : Statement .inc := of_operands _
theorem dec : Statement .dec := of_operands _

end Sys2Proof.Laws.Shape
end

