-- ==== Sys2Proof/Laws/Step.lean ====
section
/-!
SUPPORT. Everything a step can do, and what the fetch sees.
-/

namespace Sys2Proof.Machine

@[simp] theorem State.length_fetchBytes (s : State) :
    s.fetchBytes.length = min Config.maxInstrBytes (s.capacity - s.pc.toNat) := by
  simp [State.fetchBytes]

/-- Below the capacity the fetch sees at least the opcode byte. -/
theorem State.fetchBytes_cons (s : State) (h : s.pc.toNat < s.capacity) :
    ∃ bs, s.fetchBytes = s.mem.byteAt s.pc.toNat :: bs ∧
      bs.length + 1 = min Config.maxInstrBytes (s.capacity - s.pc.toNat) := by
  unfold State.fetchBytes
  obtain ⟨n, hn⟩ : ∃ n, min Config.maxInstrBytes (s.capacity - s.pc.toNat) = n + 1 :=
    Nat.exists_eq_succ_of_ne_zero (by simp only [Config.maxInstrBytes]; omega)
  exact ⟨_, by rw [hn, Memory.bytesFrom_succ], by simp [hn]⟩

@[simp] theorem State.mem_afterFetch (s : State) (rest : List Byte) : (s.afterFetch rest).mem = s.mem := rfl
@[simp] theorem State.runState_afterFetch (s : State) (rest : List Byte) : (s.afterFetch rest).runState = s.runState := rfl
@[simp] theorem State.fault_afterFetch (s : State) (rest : List Byte) : (s.afterFetch rest).fault = s.fault := rfl
@[simp] theorem State.capacity_afterFetch (s : State) (rest : List Byte) : (s.afterFetch rest).capacity = s.capacity := rfl
@[simp] theorem State.strictRegs_afterFetch (s : State) (rest : List Byte) :
    (s.afterFetch rest).strictRegs = s.strictRegs := rfl

/-- The execute phase changes no register but the program counter before it starts. -/
theorem State.reg_afterFetch_ne (s : State) (rest : List Byte) {n : RegName} (h : n ≠ .programCounter) :
    (s.afterFetch rest).reg n = s.reg n := by
  simp [State.afterFetch, State.reg_advancePc, h]

/-! ### The step, by run state -/

theorem step_ready {s : State} (h : s.runState = .ready) : step s = .next (startRun s) := by simp [step, h]
theorem step_halted {s : State} (h : s.runState = .halted) : step s = .refused .sessionHalted := by simp [step, h]
theorem step_error {s : State} {f : Fault} (h : s.runState = .error) (hf : s.fault = some f) : step s = .fault f := by
  simp [step, h, hf]
theorem step_halts {s : State} (h : s.runState = .running) (hc : s.capacity ≤ s.pc.toNat) : step s = .next (halt s) := by
  simp [step, h, hc]
theorem step_unknownOpcode {s : State} (h : s.runState = .running) (hc : s.pc.toNat < s.capacity)
    (hd : decode s.fetchBytes = .unknownOpcode) : step s = .next (raiseUnknownOpcode s) := by
  simp [step, h, Nat.not_le.2 hc, hd]
theorem step_truncated {s : State} (h : s.runState = .running) (hc : s.pc.toNat < s.capacity)
    (hd : decode s.fetchBytes = .truncated) : step s = .next (raiseTruncated s) := by
  simp [step, h, Nat.not_le.2 hc, hd]
theorem step_instr {s : State} {i : Instr} {rest : List Byte} (h : s.runState = .running) (hc : s.pc.toNat < s.capacity)
    (hd : decode s.fetchBytes = .instr i rest) : step s = exec i (s.afterFetch rest) := by
  simp [step, h, Nat.not_le.2 hc, hd]

/-- All a step can do when it answers a next state. -/
theorem step_cases {s t : State} (h : step s = .next t) :
    (s.runState = .ready ∧ t = startRun s) ∨
    (s.runState = .running ∧ s.capacity ≤ s.pc.toNat ∧ t = halt s) ∨
    (s.runState = .running ∧ s.pc.toNat < s.capacity ∧ decode s.fetchBytes = .unknownOpcode ∧ t = raiseUnknownOpcode s) ∨
    (s.runState = .running ∧ s.pc.toNat < s.capacity ∧ decode s.fetchBytes = .truncated ∧ t = raiseTruncated s) ∨
    (s.runState = .running ∧ s.pc.toNat < s.capacity ∧
      ∃ i rest, decode s.fetchBytes = .instr i rest ∧ exec i (s.afterFetch rest) = .next t) := by
  cases hr : s.runState with
  | ready =>
    rw [step_ready hr] at h
    cases h
    exact .inl ⟨rfl, rfl⟩
  | halted =>
    rw [step_halted hr] at h
    cases h
  | error =>
    cases hf : s.fault with
    | none => simp [step, hr, hf] at h
    | some f =>
      rw [step_error hr hf] at h
      cases h
  | running =>
    refine .inr ?_
    by_cases hc : s.capacity ≤ s.pc.toNat
    · rw [step_halts hr hc] at h
      cases h
      exact .inl ⟨rfl, hc, rfl⟩
    · have hc := Nat.not_le.1 hc
      refine .inr ?_
      cases hd : decode s.fetchBytes with
      | unknownOpcode =>
        rw [step_unknownOpcode hr hc hd] at h
        cases h
        exact .inl ⟨rfl, hc, rfl, rfl⟩
      | truncated =>
        rw [step_truncated hr hc hd] at h
        cases h
        exact .inr (.inl ⟨rfl, hc, rfl, rfl⟩)
      | instr i rest =>
        rw [step_instr hr hc hd] at h
        exact .inr (.inr ⟨rfl, hc, i, rest, rfl, h⟩)

end Sys2Proof.Machine
end

