-- ==== Sys2Proof/Machine/Spelling.lean ====
section
/-!
DEFINITION. The spec's written notation (30_encoding.md R173, R174; log 28): names of opcodes and registers, and what a name
with operands stands for. Reading text is out of scope (00_scope.md R104); nothing here takes part in a step.
-/

namespace Sys2Proof

/-- The mnemonic as the opcode table spells it (R164). -/
def Mnemonic.spelling : Mnemonic → String
  | .movBRToR => "MovBRToR"
  | .movWRToR => "MovWRToR"
  | .movDRToR => "MovDRToR"
  | .movR => "MovR"
  | .movBIToR => "MovBIToR"
  | .movWIToR => "MovWIToR"
  | .movDIToR => "MovDIToR"
  | .movI => "MovI"
  | .saveBRToR => "SaveBRToR"
  | .saveWRToR => "SaveWRToR"
  | .saveDRToR => "SaveDRToR"
  | .saveQRToR => "SaveQRToR"
  | .saveBIToR => "SaveBIToR"
  | .saveWIToR => "SaveWIToR"
  | .saveDIToR => "SaveDIToR"
  | .saveQIToR => "SaveQIToR"
  | .saveBRToI => "SaveBRToI"
  | .saveWRToI => "SaveWRToI"
  | .saveDRToI => "SaveDRToI"
  | .saveQRToI => "SaveQRToI"
  | .saveBIToI => "SaveBIToI"
  | .saveWIToI => "SaveWIToI"
  | .saveDIToI => "SaveDIToI"
  | .saveQIToI => "SaveQIToI"
  | .loadBRToR => "LoadBRToR"
  | .loadWRToR => "LoadWRToR"
  | .loadDRToR => "LoadDRToR"
  | .loadQRToR => "LoadQRToR"
  | .loadBIToR => "LoadBIToR"
  | .loadWIToR => "LoadWIToR"
  | .loadDIToR => "LoadDIToR"
  | .loadQIToR => "LoadQIToR"
  | .inc => "Inc"
  | .dec => "Dec"

/-- The source's family name without a form, read by the kinds of the operands given (R174). -/
def Mnemonic.familyName : Mnemonic → Option String
  | .movBRToR | .movBIToR => some "MovB"
  | .movWRToR | .movWIToR => some "MovW"
  | .movDRToR | .movDIToR => some "MovD"
  | .saveBRToR | .saveBIToR | .saveBRToI | .saveBIToI => some "SaveB"
  | .saveWRToR | .saveWIToR | .saveWRToI | .saveWIToI => some "SaveW"
  | .saveDRToR | .saveDIToR | .saveDRToI | .saveDIToI => some "SaveD"
  | .saveQRToR | .saveQIToR | .saveQRToI | .saveQIToI => some "SaveQ"
  | .loadBRToR | .loadBIToR => some "LoadB"
  | .loadWRToR | .loadWIToR => some "LoadW"
  | .loadDRToR | .loadDIToR => some "LoadD"
  | .loadQRToR | .loadQIToR => some "LoadQ"
  | .movR | .movI | .inc | .dec => none

/-- The other names of an opcode (R174). -/
def Mnemonic.otherNames : Mnemonic → List String
  | .movR => ["MovQRToR"]
  | .movI => ["MovQIToR", "MovIToR qword"]
  | .saveQIToR => ["SaveIToR qword"]
  | _ => []

/-- A name, with operands of the kinds given, stands for this opcode. -/
def Mnemonic.hasName (m : Mnemonic) (name : String) : Bool :=
  decide (m.spelling = name) || decide (m.familyName = some name) || m.otherNames.any (fun x => decide (x = name))

/-- The opcode a name and the kinds of its operands stand for (R174). -/
def Mnemonic.ofName (name : String) (kinds : List OperandKind) : Option Mnemonic :=
  (opcodeTable.find? (fun r => r.mnemonic.hasName name && decide (r.mnemonic.shape = kinds))).map Row.mnemonic

/-- The instruction a written form stands for; none when it is ill-formed (R173). -/
def Written.instr? (x : Written) : Option Instr :=
  if x.wellFormed then Instr.ofOperands x.mnemonic x.operands else none

namespace Machine

/-- The written name of a register (R173, 10_state.md R112). -/
def RegName.spelling : RegName → String
  | .r0 => "R0"
  | .r1 => "R1"
  | .r2 => "R2"
  | .r3 => "R3"
  | .r4 => "R4"
  | .r5 => "R5"
  | .r6 => "R6"
  | .r7 => "R7"
  | .r8 => "R8"
  | .r9 => "R9"
  | .rcount => "RCOUNT"
  | .flags => "Flags"
  | .stackPointer => "StackPointer"
  | .stackStart => "StackStart"
  | .stackEnd => "StackEnd"
  | .programStartLocation => "ProgramStartLocation"
  | .programCounter => "ProgramCounter"

end Machine

end Sys2Proof
end

