-- ==== Sys2Proof/Tests/Slice0.lean ====
section
/-!
SUPPORT. The model's own tests. Expected results come from the spec: its encodings (30_encoding.md R164) and its vectors
(95_test_vectors.md; M, V, L, I, F, B are its ids). Witnesses show that the hypotheses of every statement can be met.
-/

namespace Sys2Proof.Tests

open Sys2Proof.Machine

/-! ### Small states -/

/-- The session `new(image, capacity)` of a vector. -/
def session (image : List Byte) (capacity : Nat) (strict : Bool) : State :=
  match newSession image (some capacity) strict with
  | .next s => s
  | _ => State.reset

/-- A started session of 64 bytes with the registers that the vectors of 95_test_vectors.md section 2.1 preset. -/
def launch (image : List Byte) : State :=
  (((startRun (session image 64 false)).setReg .r0 0x1122334455667788).setReg .r1 0xA1B2C3D4E5F60718).setReg .r2 0x10

/-- The same with STRICT_REGS. -/
def strictly (s : State) : State := { s with strictRegs := true }

/-- Preset bytes. -/
def bytesAt (s : State) (a : Nat) (bs : List Byte) : State := { s with mem := s.mem.setBytes a bs }

/-- The bytes that the Save vectors preset at 0x10. -/
def launchSave (image : List Byte) : State := bytesAt (launch image) 0x10 [0xFF, 0xFF, 0xFF, 0xFF, 0xFF, 0xFF, 0xFF, 0xFF]

/-- The bytes that the Load vectors preset at 0x10. -/
def launchLoad (image : List Byte) : State := bytesAt (launch image) 0x10 [0xAB, 0xCD, 0xEF, 0x01, 0x23, 0x45, 0x67, 0x89]

/-- After one step: a register, the program counter, the run state and the fault. -/
def regAfter (n : RegName) (s : State) : Option (Qword × Qword × RunState × Option Fault) :=
  match step s with
  | .next t => some (t.reg n, t.pc, t.runState, t.fault)
  | _ => none

/-- After one step: the 8 bytes from an address, the program counter and the fault. -/
def bytesAfter (a : Nat) (s : State) : Option (List Byte × Qword × Option Fault) :=
  match step s with
  | .next t => some (t.mem.bytesFrom a 8, t.pc, t.fault)
  | _ => none

/-- After one step: whether all of memory and every register but the program counter are as before; the program counter and
the fault. -/
def unchangedAfter (s : State) : Option (Bool × Qword × Option Fault) :=
  match step s with
  | .next t => some (decide (t.mem = s.mem ∧ t.setReg .programCounter s.pc = { s with runState := t.runState, fault := t.fault }),
      t.pc, t.fault)
  | _ => none

/-- Some step answers a next state. -/
def goesOn (r : Result) : Bool :=
  match r with
  | .next _ => true
  | _ => false

/-! ### Every constructor's encoding, a word written out from the spec (R164, the `bytes` column of its vectors) -/

/-- M1. -/
theorem test_word_movBRToR :
    decode [0x00, 0x01, 0x00] = .instr (.movBRToR 0x01 0x00) [] ∧
    encode (.movBRToR 0x01 0x00) = [0x00, 0x01, 0x00] := by decide

/-- M2. -/
theorem test_word_movWRToR :
    decode [0x01, 0x01, 0x00] = .instr (.movWRToR 0x01 0x00) [] ∧
    encode (.movWRToR 0x01 0x00) = [0x01, 0x01, 0x00] := by decide

/-- M3. -/
theorem test_word_movDRToR :
    decode [0x02, 0x01, 0x00] = .instr (.movDRToR 0x01 0x00) [] ∧
    encode (.movDRToR 0x01 0x00) = [0x02, 0x01, 0x00] := by decide

/-- M4. -/
theorem test_word_movR :
    decode [0x03, 0x01, 0x00] = .instr (.movR 0x01 0x00) [] ∧
    encode (.movR 0x01 0x00) = [0x03, 0x01, 0x00] := by decide

/-- M5. -/
theorem test_word_movBIToR :
    decode [0x04, 0xAB, 0x00] = .instr (.movBIToR 0xAB 0x00) [] ∧
    encode (.movBIToR 0xAB 0x00) = [0x04, 0xAB, 0x00] := by decide

/-- M6. -/
theorem test_word_movWIToR :
    decode [0x05, 0xEF, 0xBE, 0x00] = .instr (.movWIToR 0xBEEF 0x00) [] ∧
    encode (.movWIToR 0xBEEF 0x00) = [0x05, 0xEF, 0xBE, 0x00] := by decide

/-- M7. -/
theorem test_word_movDIToR :
    decode [0x06, 0xEF, 0xBE, 0xAD, 0xDE, 0x00] = .instr (.movDIToR 0xDEADBEEF 0x00) [] ∧
    encode (.movDIToR 0xDEADBEEF 0x00) = [0x06, 0xEF, 0xBE, 0xAD, 0xDE, 0x00] := by decide

/-- M8. -/
theorem test_word_movI :
    decode [0x07, 0x08, 0x07, 0x06, 0x05, 0x04, 0x03, 0x02, 0x01, 0x00] = .instr (.movI 0x0102030405060708 0x00) [] ∧
    encode (.movI 0x0102030405060708 0x00) = [0x07, 0x08, 0x07, 0x06, 0x05, 0x04, 0x03, 0x02, 0x01, 0x00] := by decide

/-- V1. -/
theorem test_word_saveBRToR :
    decode [0x08, 0x00, 0x02] = .instr (.saveBRToR 0x00 0x02) [] ∧
    encode (.saveBRToR 0x00 0x02) = [0x08, 0x00, 0x02] := by decide

/-- V2. -/
theorem test_word_saveWRToR :
    decode [0x09, 0x00, 0x02] = .instr (.saveWRToR 0x00 0x02) [] ∧
    encode (.saveWRToR 0x00 0x02) = [0x09, 0x00, 0x02] := by decide

/-- V3. -/
theorem test_word_saveDRToR :
    decode [0x0A, 0x00, 0x02] = .instr (.saveDRToR 0x00 0x02) [] ∧
    encode (.saveDRToR 0x00 0x02) = [0x0A, 0x00, 0x02] := by decide

/-- V4. -/
theorem test_word_saveQRToR :
    decode [0x0B, 0x00, 0x02] = .instr (.saveQRToR 0x00 0x02) [] ∧
    encode (.saveQRToR 0x00 0x02) = [0x0B, 0x00, 0x02] := by decide

/-- V5. -/
theorem test_word_saveBIToR :
    decode [0x0C, 0xAB, 0x02] = .instr (.saveBIToR 0xAB 0x02) [] ∧
    encode (.saveBIToR 0xAB 0x02) = [0x0C, 0xAB, 0x02] := by decide

/-- V6. -/
theorem test_word_saveWIToR :
    decode [0x0D, 0xEF, 0xBE, 0x02] = .instr (.saveWIToR 0xBEEF 0x02) [] ∧
    encode (.saveWIToR 0xBEEF 0x02) = [0x0D, 0xEF, 0xBE, 0x02] := by decide

/-- V7. -/
theorem test_word_saveDIToR :
    decode [0x0E, 0xEF, 0xBE, 0xAD, 0xDE, 0x02] = .instr (.saveDIToR 0xDEADBEEF 0x02) [] ∧
    encode (.saveDIToR 0xDEADBEEF 0x02) = [0x0E, 0xEF, 0xBE, 0xAD, 0xDE, 0x02] := by decide

/-- V8. -/
theorem test_word_saveQIToR :
    decode [0x0F, 0x09, 0x00, 0x00, 0x00, 0x00, 0x00, 0x00, 0x00, 0x02] = .instr (.saveQIToR 9 0x02) [] ∧
    encode (.saveQIToR 9 0x02) = [0x0F, 0x09, 0x00, 0x00, 0x00, 0x00, 0x00, 0x00, 0x00, 0x02] := by decide

/-- V9. -/
theorem test_word_saveBRToI :
    decode [0x10, 0x00, 0x10, 0x00, 0x00, 0x00, 0x00, 0x00, 0x00, 0x00] = .instr (.saveBRToI 0x00 0x10) [] ∧
    encode (.saveBRToI 0x00 0x10) = [0x10, 0x00, 0x10, 0x00, 0x00, 0x00, 0x00, 0x00, 0x00, 0x00] := by decide

/-- V10. -/
theorem test_word_saveWRToI :
    decode [0x11, 0x00, 0x10, 0x00, 0x00, 0x00, 0x00, 0x00, 0x00, 0x00] = .instr (.saveWRToI 0x00 0x10) [] ∧
    encode (.saveWRToI 0x00 0x10) = [0x11, 0x00, 0x10, 0x00, 0x00, 0x00, 0x00, 0x00, 0x00, 0x00] := by decide

/-- V11. -/
theorem test_word_saveDRToI :
    decode [0x12, 0x00, 0x10, 0x00, 0x00, 0x00, 0x00, 0x00, 0x00, 0x00] = .instr (.saveDRToI 0x00 0x10) [] ∧
    encode (.saveDRToI 0x00 0x10) = [0x12, 0x00, 0x10, 0x00, 0x00, 0x00, 0x00, 0x00, 0x00, 0x00] := by decide

/-- V12. -/
theorem test_word_saveQRToI :
    decode [0x13, 0x00, 0x10, 0x00, 0x00, 0x00, 0x00, 0x00, 0x00, 0x00] = .instr (.saveQRToI 0x00 0x10) [] ∧
    encode (.saveQRToI 0x00 0x10) = [0x13, 0x00, 0x10, 0x00, 0x00, 0x00, 0x00, 0x00, 0x00, 0x00] := by decide

/-- V13. -/
theorem test_word_saveBIToI :
    decode [0x14, 0xAB, 0x10, 0x00, 0x00, 0x00, 0x00, 0x00, 0x00, 0x00] = .instr (.saveBIToI 0xAB 0x10) [] ∧
    encode (.saveBIToI 0xAB 0x10) = [0x14, 0xAB, 0x10, 0x00, 0x00, 0x00, 0x00, 0x00, 0x00, 0x00] := by decide

/-- V14. -/
theorem test_word_saveWIToI :
    decode [0x15, 0xEF, 0xBE, 0x10, 0x00, 0x00, 0x00, 0x00, 0x00, 0x00, 0x00] = .instr (.saveWIToI 0xBEEF 0x10) [] ∧
    encode (.saveWIToI 0xBEEF 0x10) = [0x15, 0xEF, 0xBE, 0x10, 0x00, 0x00, 0x00, 0x00, 0x00, 0x00, 0x00] := by decide

/-- V15. -/
theorem test_word_saveDIToI :
    decode [0x16, 0xEF, 0xBE, 0xAD, 0xDE, 0x10, 0x00, 0x00, 0x00, 0x00, 0x00, 0x00, 0x00] = .instr (.saveDIToI 0xDEADBEEF 0x10) [] ∧
    encode (.saveDIToI 0xDEADBEEF 0x10) = [0x16, 0xEF, 0xBE, 0xAD, 0xDE, 0x10, 0x00, 0x00, 0x00, 0x00, 0x00, 0x00, 0x00] := by decide

/-- V16. -/
theorem test_word_saveQIToI :
    decode [0x17, 0x08, 0x07, 0x06, 0x05, 0x04, 0x03, 0x02, 0x01, 0x10, 0x00, 0x00, 0x00, 0x00, 0x00, 0x00, 0x00] = .instr (.saveQIToI 0x0102030405060708 0x10) [] ∧
    encode (.saveQIToI 0x0102030405060708 0x10) = [0x17, 0x08, 0x07, 0x06, 0x05, 0x04, 0x03, 0x02, 0x01, 0x10, 0x00, 0x00, 0x00, 0x00, 0x00, 0x00, 0x00] := by decide

/-- L1. -/
theorem test_word_loadBRToR :
    decode [0x18, 0x02, 0x00] = .instr (.loadBRToR 0x02 0x00) [] ∧
    encode (.loadBRToR 0x02 0x00) = [0x18, 0x02, 0x00] := by decide

/-- L2. -/
theorem test_word_loadWRToR :
    decode [0x19, 0x02, 0x00] = .instr (.loadWRToR 0x02 0x00) [] ∧
    encode (.loadWRToR 0x02 0x00) = [0x19, 0x02, 0x00] := by decide

/-- L3. -/
theorem test_word_loadDRToR :
    decode [0x1A, 0x02, 0x00] = .instr (.loadDRToR 0x02 0x00) [] ∧
    encode (.loadDRToR 0x02 0x00) = [0x1A, 0x02, 0x00] := by decide

/-- L4. -/
theorem test_word_loadQRToR :
    decode [0x1B, 0x02, 0x00] = .instr (.loadQRToR 0x02 0x00) [] ∧
    encode (.loadQRToR 0x02 0x00) = [0x1B, 0x02, 0x00] := by decide

/-- L5. -/
theorem test_word_loadBIToR :
    decode [0x1C, 0x10, 0x00, 0x00, 0x00, 0x00, 0x00, 0x00, 0x00, 0x00] = .instr (.loadBIToR 0x10 0x00) [] ∧
    encode (.loadBIToR 0x10 0x00) = [0x1C, 0x10, 0x00, 0x00, 0x00, 0x00, 0x00, 0x00, 0x00, 0x00] := by decide

/-- L6. -/
theorem test_word_loadWIToR :
    decode [0x1D, 0x10, 0x00, 0x00, 0x00, 0x00, 0x00, 0x00, 0x00, 0x00] = .instr (.loadWIToR 0x10 0x00) [] ∧
    encode (.loadWIToR 0x10 0x00) = [0x1D, 0x10, 0x00, 0x00, 0x00, 0x00, 0x00, 0x00, 0x00, 0x00] := by decide

/-- L7. -/
theorem test_word_loadDIToR :
    decode [0x1E, 0x10, 0x00, 0x00, 0x00, 0x00, 0x00, 0x00, 0x00, 0x00] = .instr (.loadDIToR 0x10 0x00) [] ∧
    encode (.loadDIToR 0x10 0x00) = [0x1E, 0x10, 0x00, 0x00, 0x00, 0x00, 0x00, 0x00, 0x00, 0x00] := by decide

/-- L8. -/
theorem test_word_loadQIToR :
    decode [0x1F, 0x10, 0x00, 0x00, 0x00, 0x00, 0x00, 0x00, 0x00, 0x00] = .instr (.loadQIToR 0x10 0x00) [] ∧
    encode (.loadQIToR 0x10 0x00) = [0x1F, 0x10, 0x00, 0x00, 0x00, 0x00, 0x00, 0x00, 0x00, 0x00] := by decide

/-- I1. -/
theorem test_word_inc :
    decode [0x20] = .instr .inc [] ∧
    encode .inc = [0x20] := by decide

/-- I4. -/
theorem test_word_dec :
    decode [0x21] = .instr .dec [] ∧
    encode .dec = [0x21] := by decide

/-! ### What the decoder refuses, by name (R166, R171) -/

/-- All 222 bytes above 0x21 are no opcode, whatever follows. -/
theorem test_unknown_opcodes : ∀ k : Fin 222, decode [BitVec.ofNat 8 (0x22 + k.val), 0x00, 0x00] = .unknownOpcode := by
  decide +kernel

/-- An unknown opcode in the last byte is unknown, not truncated; no byte at all is truncated. -/
theorem test_last_byte : decode [0xFF] = .unknownOpcode ∧ decode [0x20] = .instr .inc [] ∧ decode [] = .truncated := by decide

/-- One byte short of each length 3, 4, 6, 10, 11, 13, 17. -/
theorem test_truncated : decode [0x03, 0x01] = .truncated ∧ decode [0x05, 0xEF, 0xBE] = .truncated ∧
    decode [0x06, 0xEF, 0xBE, 0xAD, 0xDE] = .truncated ∧ decode [0x07, 1, 0, 0, 0, 0, 0, 0, 0] = .truncated ∧
    decode [0x15, 0xEF, 0xBE, 0x10, 0, 0, 0, 0, 0, 0] = .truncated ∧
    decode [0x16, 0xEF, 0xBE, 0xAD, 0xDE, 0x10, 0, 0, 0, 0, 0, 0] = .truncated ∧
    decode [0x17, 8, 7, 6, 5, 4, 3, 2, 1, 0x10, 0, 0, 0, 0, 0, 0] = .truncated := by decide

/-- A byte that names no register is an operand like any other (R168), and the bytes after are left. -/
theorem test_register_byte_is_only_a_key : decode [0x03, 0x11, 0xFF, 0x21] = .instr (.movR 0x11 0xFF) [0x21] := by decide

/-- The lengths of the eleven formats (R160), and that each row's format has the kinds that the row's operand columns name. -/
theorem test_formats :
    [Format.n, .rr, .i1r, .i2r, .i4r, .i8r, .ri8, .i1i8, .i2i8, .i4i8, .i8i8].map Format.length =
      [1, 3, 3, 4, 6, 10, 10, 10, 11, 13, 17] ∧
    opcodeTable.all (fun r => decide (r.format.shape = r.mnemonic.shape)) = true := by decide

/-- A word as the opcode table numbers it: the first byte is the low one; bits above `nbits` do not count. -/
theorem test_table_word : decodeTableWord 24 0x000103 = some (.movR 0x01 0x00) ∧
    decodeTableWord 8 0x20 = some .inc ∧ decodeTableWord 8 0x22 = none ∧
    decodeTableWord 8 0xFF17 = some (.saveQIToI 0 0) := by decide

/-! ### WellFormed: each check refuses an ill-formed term (R155 to R158, R173) -/

theorem test_wf_accepts : Written.wellFormed ⟨.movBIToR, [.imm .byte 0xFF, .reg 0xFF]⟩ = true := by decide
theorem test_wf_refuses_count : Written.wellFormed ⟨.movR, [.reg 0x00]⟩ = false ∧
    Written.wellFormed ⟨.movR, [.reg 0x00, .reg 0x01, .reg 0x02]⟩ = false ∧ Written.wellFormed ⟨.inc, [.reg 0x0A]⟩ = false := by decide
theorem test_wf_refuses_kind : Written.wellFormed ⟨.movR, [.imm .qword 1, .reg 0x01]⟩ = false ∧
    Written.wellFormed ⟨.loadBRToR, [.reg 0x01, .imm .qword 1]⟩ = false := by decide
theorem test_wf_refuses_width : Written.wellFormed ⟨.movBIToR, [.imm .word 1, .reg 0x01]⟩ = false ∧
    Written.wellFormed ⟨.saveBIToI, [.imm .byte 1, .imm .byte 2]⟩ = false := by decide
theorem test_wf_refuses_wide_value : Written.wellFormed ⟨.movBIToR, [.imm .byte 0x100, .reg 0x01]⟩ = false ∧
    Written.wellFormed ⟨.saveDIToI, [.imm .dword 0x100000000, .imm .qword 0]⟩ = false := by decide

/-- The written notation (R173, R174): `MovI 1, R0`, and a family name read by the kinds of its operands. -/
theorem test_names : Written.instr? ⟨.movI, [.imm .qword 1, .reg 0x00]⟩ = some (.movI 1 0x00) ∧
    Mnemonic.ofName "MovB" [.imm .byte, .reg] = some .movBIToR ∧ Mnemonic.ofName "MovB" [.reg, .reg] = some .movBRToR ∧
    Mnemonic.ofName "SaveQ" [.imm .qword, .imm .qword] = some .saveQIToI ∧
    Mnemonic.ofName "MovQIToR" [.imm .qword, .reg] = some .movI ∧ Mnemonic.ofName "MovB" [] = none := by decide

/-! ### Move, one step (M vectors) -/

/-- M1: `MovBRToR R1, R0`. -/
theorem test_M1 : regAfter .r0 (launch [0x00, 0x01, 0x00]) =
    some (0x1122334455667718, 0x40, .running, none) := by decide

/-- M2: `MovWRToR R1, R0`. -/
theorem test_M2 : regAfter .r0 (launch [0x01, 0x01, 0x00]) =
    some (0x1122334455660718, 0x40, .running, none) := by decide

/-- M3: `MovDRToR R1, R0`. -/
theorem test_M3 : regAfter .r0 (launch [0x02, 0x01, 0x00]) =
    some (0x11223344E5F60718, 0x40, .running, none) := by decide

/-- M4: `MovR R1, R0`. -/
theorem test_M4 : regAfter .r0 (launch [0x03, 0x01, 0x00]) =
    some (0xA1B2C3D4E5F60718, 0x40, .running, none) := by decide

/-- M5: `MovBIToR 0xAB, R0`. -/
theorem test_M5 : regAfter .r0 (launch [0x04, 0xAB, 0x00]) =
    some (0x11223344556677AB, 0x40, .running, none) := by decide

/-- M6: `MovWIToR 0xBEEF, R0`. -/
theorem test_M6 : regAfter .r0 (launch [0x05, 0xEF, 0xBE, 0x00]) =
    some (0x112233445566BEEF, 0x40, .running, none) := by decide

/-- M7: `MovDIToR 0xDEADBEEF, R0`. -/
theorem test_M7 : regAfter .r0 (launch [0x06, 0xEF, 0xBE, 0xAD, 0xDE, 0x00]) =
    some (0x11223344DEADBEEF, 0x40, .running, none) := by decide

/-- M8: `MovI 0x0102030405060708, R0`. -/
theorem test_M8 : regAfter .r0 (launch [0x07, 0x08, 0x07, 0x06, 0x05, 0x04, 0x03, 0x02, 0x01, 0x00]) =
    some (0x0102030405060708, 0x40, .running, none) := by decide

/-- M13: `MovR ProgramCounter, R3`. -/
theorem test_M13 : regAfter .r3 (launch [0x03, 0x10, 0x03]) =
    some (0x0000000000000040, 0x40, .running, none) := by decide

/-- M14: `MovBRToR ProgramCounter, R0`. -/
theorem test_M14 : regAfter .r0 (launch [0x00, 0x10, 0x00]) =
    some (0x1122334455667740, 0x40, .running, none) := by decide

/-- M15: `MovBIToR 0x0F, Flags`. -/
theorem test_M15 : regAfter .flags ((launch [0x04, 0x0F, 0x0B]).setReg .flags 0xFFFF0000000001F0) =
    some (0xFFFF00000000010F, 0x40, .running, none) := by decide

/-- M16: `MovR Reg(0x11), R0`. -/
theorem test_M16 : regAfter .r0 (launch [0x03, 0x11, 0x00]) =
    some (0x0000000000000000, 0x40, .running, none) := by decide

/-- M18: `MovI 5, Reg(0x20)`. -/
theorem test_M18 : unchangedAfter (launch [0x07, 0x05, 0x00, 0x00, 0x00, 0x00, 0x00, 0x00, 0x00, 0x20]) = some (true, 0x40, none) := by decide

/-- M20: `MovR Reg(0x11), R0`. -/
theorem test_M20 : unchangedAfter (strictly (launch [0x03, 0x11, 0x00])) = some (true, 0x40, some .invalidRegisterCode) := by decide

/-- M22: `MovBIToR 5, Reg(0x11)`. -/
theorem test_M22 : unchangedAfter (strictly (launch [0x04, 0x05, 0x11])) = some (true, 0x40, some .invalidRegisterCode) := by decide

/-- M23: `MovI 0x1000, ProgramCounter`. -/
theorem test_M23 : unchangedAfter (launch [0x07, 0x00, 0x10, 0x00, 0x00, 0x00, 0x00, 0x00, 0x00, 0x10]) = some (true, 0x1000, none) := by decide

/-- M26: a byte Move into the program counter merges into `pc1`. -/
theorem test_M26 : regAfter .programCounter (startRun (session [0x04, 0xFF, 0x10] 0x200 false)) =
    some (0x2FF, 0x2FF, .running, none) := by decide

/-- M27: a word Move into the program counter. -/
theorem test_M27 : regAfter .programCounter
    ((startRun (session [0x01, 0x01, 0x10] 0x10000 false)).setReg .r1 0xAAAABBBBCCCC1234) =
    some (0x11234, 0x11234, .running, none) := by decide

/-! ### Save, one step (V vectors) -/

/-- V1: `SaveBRToR R0, R2`. -/
theorem test_V1 : bytesAfter 0x10 (launchSave [0x08, 0x00, 0x02]) =
    some ([0x88, 0xFF, 0xFF, 0xFF, 0xFF, 0xFF, 0xFF, 0xFF], 0x40, none) := by decide

/-- V2: `SaveWRToR R0, R2`. -/
theorem test_V2 : bytesAfter 0x10 (launchSave [0x09, 0x00, 0x02]) =
    some ([0x88, 0x77, 0xFF, 0xFF, 0xFF, 0xFF, 0xFF, 0xFF], 0x40, none) := by decide

/-- V3: `SaveDRToR R0, R2`. -/
theorem test_V3 : bytesAfter 0x10 (launchSave [0x0A, 0x00, 0x02]) =
    some ([0x88, 0x77, 0x66, 0x55, 0xFF, 0xFF, 0xFF, 0xFF], 0x40, none) := by decide

/-- V4: `SaveQRToR R0, R2`. -/
theorem test_V4 : bytesAfter 0x10 (launchSave [0x0B, 0x00, 0x02]) =
    some ([0x88, 0x77, 0x66, 0x55, 0x44, 0x33, 0x22, 0x11], 0x40, none) := by decide

/-- V5: `SaveBIToR 0xAB, R2`. -/
theorem test_V5 : bytesAfter 0x10 (launchSave [0x0C, 0xAB, 0x02]) =
    some ([0xAB, 0xFF, 0xFF, 0xFF, 0xFF, 0xFF, 0xFF, 0xFF], 0x40, none) := by decide

/-- V6: `SaveWIToR 0xBEEF, R2`. -/
theorem test_V6 : bytesAfter 0x10 (launchSave [0x0D, 0xEF, 0xBE, 0x02]) =
    some ([0xEF, 0xBE, 0xFF, 0xFF, 0xFF, 0xFF, 0xFF, 0xFF], 0x40, none) := by decide

/-- V7: `SaveDIToR 0xDEADBEEF, R2`. -/
theorem test_V7 : bytesAfter 0x10 (launchSave [0x0E, 0xEF, 0xBE, 0xAD, 0xDE, 0x02]) =
    some ([0xEF, 0xBE, 0xAD, 0xDE, 0xFF, 0xFF, 0xFF, 0xFF], 0x40, none) := by decide

/-- V8: `SaveQIToR 9, R2`. -/
theorem test_V8 : bytesAfter 0x10 (launchSave [0x0F, 0x09, 0x00, 0x00, 0x00, 0x00, 0x00, 0x00, 0x00, 0x02]) =
    some ([0x09, 0x00, 0x00, 0x00, 0x00, 0x00, 0x00, 0x00], 0x40, none) := by decide

/-- V9: `SaveBRToI R0, 0x10`. -/
theorem test_V9 : bytesAfter 0x10 (launchSave [0x10, 0x00, 0x10, 0x00, 0x00, 0x00, 0x00, 0x00, 0x00, 0x00]) =
    some ([0x88, 0xFF, 0xFF, 0xFF, 0xFF, 0xFF, 0xFF, 0xFF], 0x40, none) := by decide

/-- V10: `SaveWRToI R0, 0x10`. -/
theorem test_V10 : bytesAfter 0x10 (launchSave [0x11, 0x00, 0x10, 0x00, 0x00, 0x00, 0x00, 0x00, 0x00, 0x00]) =
    some ([0x88, 0x77, 0xFF, 0xFF, 0xFF, 0xFF, 0xFF, 0xFF], 0x40, none) := by decide

/-- V11: `SaveDRToI R0, 0x10`. -/
theorem test_V11 : bytesAfter 0x10 (launchSave [0x12, 0x00, 0x10, 0x00, 0x00, 0x00, 0x00, 0x00, 0x00, 0x00]) =
    some ([0x88, 0x77, 0x66, 0x55, 0xFF, 0xFF, 0xFF, 0xFF], 0x40, none) := by decide

/-- V12: `SaveQRToI R0, 0x10`. -/
theorem test_V12 : bytesAfter 0x10 (launchSave [0x13, 0x00, 0x10, 0x00, 0x00, 0x00, 0x00, 0x00, 0x00, 0x00]) =
    some ([0x88, 0x77, 0x66, 0x55, 0x44, 0x33, 0x22, 0x11], 0x40, none) := by decide

/-- V13: `SaveBIToI 0xAB, 0x10`. -/
theorem test_V13 : bytesAfter 0x10 (launchSave [0x14, 0xAB, 0x10, 0x00, 0x00, 0x00, 0x00, 0x00, 0x00, 0x00]) =
    some ([0xAB, 0xFF, 0xFF, 0xFF, 0xFF, 0xFF, 0xFF, 0xFF], 0x40, none) := by decide

/-- V14: `SaveWIToI 0xBEEF, 0x10`. -/
theorem test_V14 : bytesAfter 0x10 (launchSave [0x15, 0xEF, 0xBE, 0x10, 0x00, 0x00, 0x00, 0x00, 0x00, 0x00, 0x00]) =
    some ([0xEF, 0xBE, 0xFF, 0xFF, 0xFF, 0xFF, 0xFF, 0xFF], 0x40, none) := by decide

/-- V15: `SaveDIToI 0xDEADBEEF, 0x10`. -/
theorem test_V15 : bytesAfter 0x10 (launchSave [0x16, 0xEF, 0xBE, 0xAD, 0xDE, 0x10, 0x00, 0x00, 0x00, 0x00, 0x00, 0x00, 0x00]) =
    some ([0xEF, 0xBE, 0xAD, 0xDE, 0xFF, 0xFF, 0xFF, 0xFF], 0x40, none) := by decide

/-- V16: `SaveQIToI 0x0102030405060708, 0x10`. -/
theorem test_V16 : bytesAfter 0x10 (launchSave [0x17, 0x08, 0x07, 0x06, 0x05, 0x04, 0x03, 0x02, 0x01, 0x10, 0x00, 0x00, 0x00, 0x00, 0x00, 0x00, 0x00]) =
    some ([0x08, 0x07, 0x06, 0x05, 0x04, 0x03, 0x02, 0x01], 0x40, none) := by decide

/-- V17: `SaveWRToR R0, R2`. -/
theorem test_V17 : bytesAfter 0x11 ((launchSave [0x09, 0x00, 0x02]).setReg .r2 0x11) =
    some ([0x88, 0x77, 0xFF, 0xFF, 0xFF, 0xFF, 0xFF, 0x00], 0x40, none) := by decide

/-- V18: `SaveQRToR R2, R2`. -/
theorem test_V18 : bytesAfter 0x10 (launchSave [0x0B, 0x02, 0x02]) =
    some ([0x10, 0x00, 0x00, 0x00, 0x00, 0x00, 0x00, 0x00], 0x40, none) := by decide

/-- V19: `SaveQRToI ProgramCounter, 0`. -/
theorem test_V19 : bytesAfter 0x0 (launchSave [0x13, 0x10, 0x00, 0x00, 0x00, 0x00, 0x00, 0x00, 0x00, 0x00]) =
    some ([0x40, 0x00, 0x00, 0x00, 0x00, 0x00, 0x00, 0x00], 0x40, none) := by decide

/-- V20: `SaveBRToR R0, R2`. -/
theorem test_V20 : bytesAfter 0x38 ((launchSave [0x08, 0x00, 0x02]).setReg .r2 0x3F) =
    some ([0x00, 0x00, 0x00, 0x00, 0x00, 0x08, 0x00, 0x88], 0x40, none) := by decide

/-- V23: `SaveQRToI R0, 0xFFFFFFFFFFFFFFFF`. -/
theorem test_V23 : unchangedAfter (launchSave [0x13, 0x00, 0xFF, 0xFF, 0xFF, 0xFF, 0xFF, 0xFF, 0xFF, 0xFF]) = some (true, 0x40, some .outOfBounds) := by decide

/-- V25: `SaveQIToI 1, 0x39`. -/
theorem test_V25 : unchangedAfter (launchSave [0x17, 0x01, 0x00, 0x00, 0x00, 0x00, 0x00, 0x00, 0x00, 0x39, 0x00, 0x00, 0x00, 0x00, 0x00, 0x00, 0x00]) = some (true, 0x40, some .outOfBounds) := by decide

/-- V27: `SaveBIToR 0xAB, Reg(0x11)`. -/
theorem test_V27 : bytesAfter 0x0 (launchSave [0x0C, 0xAB, 0x11]) =
    some ([0xAB, 0x00, 0x00, 0x00, 0x00, 0x00, 0x00, 0x00], 0x40, none) := by decide

/-- V28: `SaveBRToR Reg(0x11), R2`. -/
theorem test_V28 : unchangedAfter (strictly (launchSave [0x08, 0x11, 0x02])) = some (true, 0x40, some .invalidRegisterCode) := by decide

/-- V30: `SaveBIToR 0xAB, Reg(0x11)`. -/
theorem test_V30 : unchangedAfter (strictly (launchSave [0x0C, 0xAB, 0x11])) = some (true, 0x40, some .invalidRegisterCode) := by decide

/-! ### Load, one step (L vectors) -/

/-- L1: `LoadBRToR R2, R0`. -/
theorem test_L1 : regAfter .r0 (launchLoad [0x18, 0x02, 0x00]) =
    some (0x00000000000000AB, 0x40, .running, none) := by decide

/-- L2: `LoadWRToR R2, R0`. -/
theorem test_L2 : regAfter .r0 (launchLoad [0x19, 0x02, 0x00]) =
    some (0x000000000000CDAB, 0x40, .running, none) := by decide

/-- L3: `LoadDRToR R2, R0`. -/
theorem test_L3 : regAfter .r0 (launchLoad [0x1A, 0x02, 0x00]) =
    some (0x0000000001EFCDAB, 0x40, .running, none) := by decide

/-- L4: `LoadQRToR R2, R0`. -/
theorem test_L4 : regAfter .r0 (launchLoad [0x1B, 0x02, 0x00]) =
    some (0x8967452301EFCDAB, 0x40, .running, none) := by decide

/-- L5: `LoadBIToR 0x10, R0`. -/
theorem test_L5 : regAfter .r0 (launchLoad [0x1C, 0x10, 0x00, 0x00, 0x00, 0x00, 0x00, 0x00, 0x00, 0x00]) =
    some (0x00000000000000AB, 0x40, .running, none) := by decide

/-- L6: `LoadWIToR 0x10, R0`. -/
theorem test_L6 : regAfter .r0 (launchLoad [0x1D, 0x10, 0x00, 0x00, 0x00, 0x00, 0x00, 0x00, 0x00, 0x00]) =
    some (0x000000000000CDAB, 0x40, .running, none) := by decide

/-- L7: `LoadDIToR 0x10, R0`. -/
theorem test_L7 : regAfter .r0 (launchLoad [0x1E, 0x10, 0x00, 0x00, 0x00, 0x00, 0x00, 0x00, 0x00, 0x00]) =
    some (0x0000000001EFCDAB, 0x40, .running, none) := by decide

/-- L8: `LoadQIToR 0x10, R0`. -/
theorem test_L8 : regAfter .r0 (launchLoad [0x1F, 0x10, 0x00, 0x00, 0x00, 0x00, 0x00, 0x00, 0x00, 0x00]) =
    some (0x8967452301EFCDAB, 0x40, .running, none) := by decide

/-- L10: `LoadDIToR 0x10, R0`. -/
theorem test_L10 : regAfter .r0 (bytesAt (launchLoad [0x1E, 0x10, 0x00, 0x00, 0x00, 0x00, 0x00, 0x00, 0x00, 0x00]) 0x10 [0xFF, 0xFF, 0xFF, 0xFF]) =
    some (0x00000000FFFFFFFF, 0x40, .running, none) := by decide

/-- L11: `LoadWIToR 0x11, R0`. -/
theorem test_L11 : regAfter .r0 (launchLoad [0x1D, 0x11, 0x00, 0x00, 0x00, 0x00, 0x00, 0x00, 0x00, 0x00]) =
    some (0x000000000000EFCD, 0x40, .running, none) := by decide

/-- L12: `LoadQRToR R2, R2`. -/
theorem test_L12 : regAfter .r2 (launchLoad [0x1B, 0x02, 0x02]) =
    some (0x8967452301EFCDAB, 0x40, .running, none) := by decide

/-- L15: `LoadWRToR R2, R0`. -/
theorem test_L15 : unchangedAfter ((launchLoad [0x19, 0x02, 0x00]).setReg .r2 0x3F) = some (true, 0x40, some .outOfBounds) := by decide

/-- L17: `LoadQIToR 0xFFFFFFFFFFFFFFF8, R0`. -/
theorem test_L17 : unchangedAfter (launchLoad [0x1F, 0xF8, 0xFF, 0xFF, 0xFF, 0xFF, 0xFF, 0xFF, 0xFF, 0x00]) = some (true, 0x40, some .outOfBounds) := by decide

/-- L20: `LoadBRToR R2, Reg(0x11)`. -/
theorem test_L20 : unchangedAfter (launchLoad [0x18, 0x02, 0x11]) = some (true, 0x40, none) := by decide

/-- L25: `LoadQIToR 0x10, ProgramCounter`. -/
theorem test_L25 : unchangedAfter (bytesAt (launchLoad [0x1F, 0x10, 0x00, 0x00, 0x00, 0x00, 0x00, 0x00, 0x00, 0x10]) 0x10 [0x00, 0x01, 0x00, 0x00, 0x00, 0x00, 0x00, 0x00]) = some (true, 0x100, none) := by decide

/-! ### Inc and Dec, one step (I vectors) -/

/-- I1: `Inc`. -/
theorem test_I1 : regAfter .rcount ((launch [0x20]).setReg .rcount 41) =
    some (0x000000000000002A, 0x40, .running, none) := by decide

/-- I2: `Inc`. -/
theorem test_I2 : regAfter .rcount (((launch [0x20]).setReg .rcount 0xFFFFFFFFFFFFFFFF).setReg .flags 0) =
    some (0x0000000000000000, 0x40, .running, none) := by decide

/-- I4: `Dec`. -/
theorem test_I4 : regAfter .rcount ((launch [0x21]).setReg .rcount 42) =
    some (0x0000000000000029, 0x40, .running, none) := by decide

/-- I5: `Dec`. -/
theorem test_I5 : regAfter .rcount (((launch [0x21]).setReg .rcount 0).setReg .flags 0) =
    some (0xFFFFFFFFFFFFFFFF, 0x40, .running, none) := by decide

/-! ### Faults, halting, boot (F and B vectors) -/

/-- F1: the lowest unassigned opcode; the program counter stays. -/
theorem test_F1 : unchangedAfter (startRun (session [0x22] 64 false)) = some (true, 0x3F, some .unknownOpcode) := by
  decide

/-- F5: the first operand of `SaveQIToI` is out of bounds. -/
theorem test_F5 : unchangedAfter (startRun (session [0x17] 64 false)) = some (true, 0x3F, some .outOfBounds) := by
  decide

/-- F6: a decode fault comes before the register code is looked at, in strict mode. -/
theorem test_F6 : unchangedAfter (startRun (session [0x13, 0x11, 0x00, 0x00] 64 true)) =
    some (true, 0x3C, some .outOfBounds) := by decide

/-- F8: strict mode faults on the read of the destination that a merge needs. -/
theorem test_F8 : unchangedAfter ((startRun (session [0x20] 7 true)).setReg .programCounter 4) =
    some (true, 0x07, some .invalidRegisterCode) := by decide

/-- S6, a step at the capacity halts, and a halted session has no step. -/
theorem test_halt : regAfter .programCounter ((launch []).setReg .programCounter 0x40) = some (0x40, 0x40, .halted, none) ∧
    goesOn (step (halt (launch []))) = false := by decide

/-- B1 and B2: the empty image halts at the first check. -/
theorem test_B1 : runSession 1 State.reset = .halted { State.reset with runState := .halted } ∧
    runSession 1 (session [] 0 false) = .halted { session [] 0 false with runState := .halted } := by decide

/-- B3: an image that is too long. -/
theorem test_B3 : (session [0x20, 0x20, 0x20] 2 false).fault = some .imageTooLarge ∧
    (session [0x20, 0x20, 0x20] 2 false).mem = [] ∧ (session [0x20, 0x20, 0x20] 2 false).regs = Regs.zero ∧
    runSession 5 (session [0x20, 0x20, 0x20] 2 false) = .fault .imageTooLarge := by decide

/-- B4: the image fills memory; B5: the default capacity. -/
theorem test_B4 : (session [0x20] 1 false).pc = 0 ∧ (session [0x20] 1 false).mem = [(0, 0x20)] ∧
    newSession [0x20] none false = .next (session [0x20] 21 false) ∧ (session [0x20] 21 false).pc = 20 :=
  ⟨by decide, by decide, rfl, by decide⟩

/-- After reset: every register but two is 0, memory reads 0, the fetch position is past the end of the empty image. -/
theorem test_reset : State.reset.reg .programStartLocation = 20 ∧ State.reset.pc = 20 ∧ State.reset.reg .flags = 0 ∧
    State.reset.mem.byteAt 0 = 0 ∧ State.reset.runState = .ready := by decide

/-- A word placed at reset is run by the very next step, as in the session of a 17-byte image with the default capacity. -/
theorem test_placed_word : regAfter .r0 (State.reset.withFetchWord 80 0x00000000000000000107) = some (1, 30, .running, none) ∧
    (State.reset.withFetchWord 80 0x00000000000000000107).capacity = 37 := by decide

/-- The flag helpers (10_state.md R123): bit 3 is Negative; bits above 7 are kept. -/
theorem test_flags : (setFlag ((launch []).setReg .flags 0xFFFF000000000000) FlagName.negative.bit).reg .flags =
      0xFFFF000000000008 ∧
    (clearFlag ((launch []).setReg .flags 0xFF) FlagName.carry.bit).reg .flags = 0xFD ∧
    isFlagSet ((launch []).setReg .flags 0x04) FlagName.overflow.bit = true := by decide

/-! ### Memory in canonical form -/

/-- A zero byte is not listed, cells rise, a second write to a byte replaces the first. -/
theorem test_canonical : Memory.setBytes [] 3 [0, 7, 0] = [(4, 7)] ∧ Memory.setByte [(4, 7)] 4 0 = [] ∧
    Memory.setByte [(4, 7)] 2 9 = [(2, 9), (4, 7)] ∧ Memory.setByte [(2, 9), (4, 7)] 2 8 = [(2, 8), (4, 7)] := by decide

/-! ### Witnesses: states and operands that meet the hypotheses of the statements, clause by clause -/

/-- A running session of capacity 64. -/
def runs : State := launchLoad [0x20]

/-- It in strict mode. -/
def runsStrict : State := strictly runs

theorem witness_RegisterFileReadsAndWrites : (0x10 : Byte).toNat ≤ 0x10 ∧
    (0x10 < (0x11 : Byte).toNat ∧ runsStrict.strictRegs = true) ∧ 0x10 < (0xFF : Byte).toNat ∧ runs.strictRegs = false := by
  decide
theorem witness_RegisterFileInTotalForm : runsStrict.Answers 0x10 ∧ runs.Answers 0x11 ∧
    RegName.code .programCounter = 0x10 ∧ 0x10 < (0x11 : Byte).toNat := by decide
theorem witness_NarrowWriteKeepsHighBytes : (0xFF : Qword).toNat < 2 ^ (8 * Width.byte.bytes) ∧ (0x10 : Byte).toNat ≤ 0x10 ∧
    (0x10 < (0x11 : Byte).toNat ∧ runs.strictRegs = false) ∧ 0x10 < (0x11 : Byte).toNat ∧ runsStrict.strictRegs = true := by
  decide
theorem witness_TypedReadIsLittleEndianSum : (0x38 : Qword).toNat + Width.qword.bytes ≤ runs.capacity ∧
    runs.capacity < (0x39 : Qword).toNat + Width.qword.bytes := by decide
theorem witness_TypedWriteStoresItsBytesOnly : (0x3F : Qword).toNat + Width.byte.bytes ≤ runs.capacity ∧
    runs.capacity < (0x3F : Qword).toNat + Width.word.bytes := by decide
theorem witness_TypedWriteThenReadReturnsTheValue : (0x3E : Qword).toNat + Width.word.bytes ≤ runs.capacity ∧
    (0xFFFF : Qword).toNat < 2 ^ (8 * Width.word.bytes) := by decide
theorem witness_NarrowerReadsSeeTheSameBytes : runs.CapacityInRange ∧ ∃ t, memWrite runs 0x38 .qword 0x0102030405060708 = .ok t :=
  ⟨by decide, _, rfl⟩
theorem witness_OutOfBoundsAccessTransfersNothing :
    (runs.capacity < (0x39 : Qword).toNat + Width.qword.bytes ∧
      storeOperand (.saveQRToI 0x10 0x39) = some (.imm .qword 0x39, .qword) ∧
      (∀ c, .reg c ∈ Instr.operands (.saveQRToI 0x10 0x39) → runs.Answers c) ∧
      addrValue runs (.imm .qword 0x39) = .ok 0x39) ∧
    (runs.capacity < (0x40 : Qword).toNat + Width.byte.bytes ∧
      loadOperand (.loadBIToR 0x40 0x00) = some (.imm .qword 0x40, .byte) ∧
      addrValue runs (.imm .qword 0x40) = .ok 0x40) := by
  refine ⟨⟨by decide, rfl, fun c _ => .inr rfl, rfl⟩, by decide, rfl, rfl⟩
theorem witness_ImageLoadsAtTheTop : (session [] 1 false).capacity < [0x20, (0x20 : Byte)].length ∧
    [(0x20 : Byte)].length ≤ (session [] 1 false).capacity ∧ ([(0x20 : Byte)].length ≤ 1 ∧ 1 < 2 ^ 64) ∧
    ([] : List Byte).length ≤ 2 ^ 64 - 1 ∧ 2 ^ 64 - 1 < 2 ^ 64 := by decide
theorem witness_OversizedImageNeverStarts : (2 < [(0x20 : Byte), 0x20, 0x20].length ∧ [(0x20 : Byte), 0x20, 0x20].length < 2 ^ 64) ∧
    (∃ t, newSession [0x20] none true = .next t) ∧
    runs.runState = .running ∧ runs.fault ≠ some .imageTooLarge ∧ ∃ t, step runs = .next t :=
  ⟨by decide, ⟨_, rfl⟩, by decide, by decide, _, rfl⟩
theorem witness_NewSessionState : (1 = (some 1 : Option Nat).getD ([(0x20 : Byte)].length + 20) ∧ 1 < 2 ^ 64 ∧ [(0x20 : Byte)].length ≤ 1) ∧
    21 = (none : Option Nat).getD ([(0x20 : Byte)].length + 20) ∧ 21 < 2 ^ 64 ∧ [(0x20 : Byte)].length ≤ 21 := by decide
theorem witness_HostPresetsOnlyInReady : State.reset.runState = .ready ∧ 19 < State.reset.capacity ∧ State.reset.capacity ≤ 20 ∧
    runs.runState ≠ .ready := by decide
theorem witness_InspectorReadsOutsideRunning : (halt runs).runState ≠ .running ∧ RegName.code .programCounter = 0x10 ∧
    0x10 < (0x11 : Byte).toNat ∧ 63 < (halt runs).capacity ∧ (halt runs).capacity ≤ 64 ∧ runs.runState = .running := by
  decide
theorem witness_NarrowMoveFromRegister : runsStrict.Answers 0x10 ∧ runs.Answers 0x11 := by decide
theorem witness_NarrowMoveFromImmediate : runsStrict.Answers 0x10 ∧ runs.Answers 0xFF := by decide
theorem witness_QwordMoveReplacesTheRegister : runsStrict.Answers 0x10 ∧ runsStrict.Answers 0x00 ∧ (0x10 : Byte) = 0x10 ∧
    (0x10 : Byte).toNat ≤ 0x10 := by decide
theorem witness_SaveRegisterAtRegisterAddress : runs.Answers 0x10 ∧ runs.Answers 0x02 ∧
    ((runs.setReg .r2 0x3F).codeValue 0x02).toNat + 1 ≤ runs.capacity ∧
    ((runs.setReg .r2 0x3E).codeValue 0x02).toNat + 2 ≤ runs.capacity ∧
    ((runs.setReg .r2 0x3C).codeValue 0x02).toNat + 4 ≤ runs.capacity ∧
    ((runs.setReg .r2 0x38).codeValue 0x02).toNat + 8 ≤ runs.capacity := by decide
theorem witness_SaveImmediateAtRegisterAddress : runs.Answers 0x11 ∧ (runs.codeValue 0x11).toNat + 1 ≤ runs.capacity ∧
    (runs.codeValue 0x11).toNat + 2 ≤ runs.capacity ∧ (runs.codeValue 0x11).toNat + 4 ≤ runs.capacity ∧
    (runs.codeValue 0x11).toNat + 8 ≤ runs.capacity := by decide
theorem witness_SaveRegisterAtImmediateAddress : runs.Answers 0x11 ∧ (0x3F : Qword).toNat + 1 ≤ runs.capacity ∧
    (0x3E : Qword).toNat + 2 ≤ runs.capacity ∧ (0x3C : Qword).toNat + 4 ≤ runs.capacity ∧
    (0x38 : Qword).toNat + 8 ≤ runs.capacity := by decide
theorem witness_SaveImmediateAtImmediateAddress : (0x3F : Qword).toNat + 1 ≤ runs.capacity ∧
    (0x3E : Qword).toNat + 2 ≤ runs.capacity ∧ (0x3C : Qword).toNat + 4 ≤ runs.capacity ∧
    (0x38 : Qword).toNat + 8 ≤ runs.capacity := by decide
theorem witness_LoadReplacesTheWholeRegister : (0x02 : Byte).toNat ≤ 0x10 ∧ (0x10 : Byte).toNat ≤ 0x10 ∧
    ((runs.setReg .r2 0x3F).codeValue 0x02).toNat + 1 ≤ runs.capacity ∧
    ((runs.setReg .r2 0x3E).codeValue 0x02).toNat + 2 ≤ runs.capacity ∧
    ((runs.setReg .r2 0x3C).codeValue 0x02).toNat + 4 ≤ runs.capacity ∧
    ((runs.setReg .r2 0x38).codeValue 0x02).toNat + 8 ≤ runs.capacity ∧
    (0x3F : Qword).toNat + 1 ≤ runs.capacity ∧ (0x3E : Qword).toNat + 2 ≤ runs.capacity ∧
    (0x3C : Qword).toNat + 4 ≤ runs.capacity ∧ (0x38 : Qword).toNat + 8 ≤ runs.capacity ∧
    runs.mem.byteAt (0x10 : Qword).toNat = 0xAB := by decide
theorem witness_IncAndDecUndoEachOther : (∃ t, exec .inc runs = .next t) ∧ ∃ t, exec .dec runs = .next t := ⟨⟨_, rfl⟩, _, rfl⟩
theorem witness_TolerantMovesIgnoreUnknownCodes : runs.strictRegs = false ∧ 0x10 < (0x11 : Byte).toNat ∧ runs.Answers 0x10 := by
  decide
theorem witness_TolerantSavesIgnoreUnknownCodes : runs.strictRegs = false ∧ 0x10 < (0xFF : Byte).toNat := by decide
theorem witness_TolerantLoadsIgnoreUnknownCodes : runs.strictRegs = false ∧ 0x10 < (0x11 : Byte).toNat ∧
    ((0x3F : Qword).toNat + 1 ≤ runs.capacity ∧ runs.capacity < (0x40 : Qword).toNat + 1) ∧
    ((0x3E : Qword).toNat + 2 ≤ runs.capacity ∧ runs.capacity < (0x3F : Qword).toNat + 2) ∧
    ((0x3C : Qword).toNat + 4 ≤ runs.capacity ∧ runs.capacity < (0x3D : Qword).toNat + 4) ∧
    (0x38 : Qword).toNat + 8 ≤ runs.capacity ∧ runs.capacity < (0x39 : Qword).toNat + 8 := by decide
theorem witness_StrictModeFaultsOnUnknownCodes : runsStrict.strictRegs = true ∧ 0x10 < (0x11 : Byte).toNat ∧
    (0x10 : Byte).toNat ≤ 0x10 := by decide
theorem witness_MoveAndLoadFrame : (destCode (.loadBRToR 0x02 0x00) = some 0x00 ∧ ∃ t, exec (.loadBRToR 0x02 0x00) runs = .next t) ∧
    destCode (.movR 0x11 0x10) = some 0x10 ∧ ∃ t, exec (.movR 0x11 0x10) runsStrict = .next t := ⟨⟨rfl, _, rfl⟩, rfl, _, rfl⟩
theorem witness_SaveFrame : (storeOperand (.saveBRToR 0x00 0x02) = some (.reg 0x02, .byte) ∧
      (∃ t, exec (.saveBRToR 0x00 0x02) runs = .next t) ∧ addrValue runs (.reg 0x02) = .ok 0x10) ∧
    storeOperand (.saveBIToR 1 0x11) = some (.reg 0x11, .byte) ∧ (∃ t, exec (.saveBIToR 1 0x11) runsStrict = .next t) ∧
    addrValue runsStrict (.reg 0x11) = .error .invalidRegisterCode := ⟨⟨rfl, ⟨_, rfl⟩, rfl⟩, rfl, ⟨_, rfl⟩, rfl⟩
theorem witness_RegistersChangeOnlyAsDestination : runs.runState = .running ∧
    ∃ t, step runs = .next t ∧ RegName.rcount ≠ .programCounter ∧ t.reg .rcount ≠ runs.reg .rcount :=
  ⟨by decide, _, rfl, by decide, by decide⟩
theorem witness_UnnamedRegistersDoNotMatter : Operand.reg (RegName.code .rcount) ∉ Instr.operands (.movR 0x01 0x00) ∧
    (RegName.rcount = .rcount → Instr.movR 0x01 0x00 ≠ .inc ∧ Instr.movR 0x01 0x00 ≠ .dec) ∧
    ∃ t, exec (.movR 0x01 0x00) runs = .next t := ⟨by decide, by decide, _, rfl⟩
theorem witness_StepExecutesTheDecodedInstruction : runs.runState = .running ∧ runs.pc.toNat < runs.capacity ∧
    decode runs.fetchBytes = .instr .inc [] := by decide
theorem witness_StepRunsTheInstructionAtThePc : runs.runState = .running ∧ runs.InstrAt .inc :=
  ⟨by decide, by decide, by decide⟩
theorem witness_HaltsExactlyAtTheCapacity : ((runs.setReg .programCounter 64).runState = .running ∧
      (runs.setReg .programCounter 64).capacity ≤ (runs.setReg .programCounter 64).pc.toNat) ∧
    (runs.runState = .running ∧ runs.pc.toNat < runs.capacity ∧ ∃ t, step runs = .next t) ∧
    (∃ s, newSession [] none false = .next s) ∧ ∃ s, newSession [] (some 0) true = .next s :=
  ⟨by decide, ⟨by decide, by decide, _, rfl⟩, ⟨_, rfl⟩, _, rfl⟩
theorem witness_UnknownOpcodeLeavesTheState : ((launch [0x22]).runState = .running ∧
      (launch [0x22]).pc.toNat < (launch [0x22]).capacity ∧
      ∀ r ∈ opcodeTable, r.opcode ≠ (launch [0x22]).mem.byteAt (launch [0x22]).pc.toNat) ∧
    ((launch [0x21]).runState = .running ∧ (launch [0x21]).pc.toNat < (launch [0x21]).capacity ∧
      (∃ r ∈ opcodeTable, r.opcode = (launch [0x21]).mem.byteAt (launch [0x21]).pc.toNat) ∧
      (launch [0x21]).fault ≠ some .unknownOpcode ∧ ∃ t, step (launch [0x21]) = .next t) :=
  ⟨by decide, by decide, by decide, by decide, by decide, _, rfl⟩
theorem witness_OperandsPastTheEndFault :
    ((launch [0x03, 0x01]).runState = .running ∧ (launch [0x03, 0x01]).pc.toNat < (launch [0x03, 0x01]).capacity ∧
      ∃ r ∈ opcodeTable, r.opcode = (launch [0x03, 0x01]).mem.byteAt (launch [0x03, 0x01]).pc.toNat ∧
        (launch [0x03, 0x01]).capacity < (launch [0x03, 0x01]).pc.toNat + r.format.length) ∧
    ((launch [0x03, 0x01, 0x00]).runState = .running ∧
      (launch [0x03, 0x01, 0x00]).pc.toNat < (launch [0x03, 0x01, 0x00]).capacity ∧
      ∃ r ∈ opcodeTable, r.opcode = (launch [0x03, 0x01, 0x00]).mem.byteAt (launch [0x03, 0x01, 0x00]).pc.toNat ∧
        (launch [0x03, 0x01, 0x00]).pc.toNat + r.format.length ≤ (launch [0x03, 0x01, 0x00]).capacity) ∧
    ((launch [0xFF]).runState = .running ∧ (launch [0xFF]).pc.toNat < (launch [0xFF]).capacity ∧
      ∀ r ∈ opcodeTable, r.opcode ≠ (launch [0xFF]).mem.byteAt (launch [0xFF]).pc.toNat) := by decide
theorem witness_TerminalSessionsHaveNoStep : (halt runs).runState = .halted ∧
    (raiseFault .outOfBounds runs).runState = .error ∧ (raiseFault .outOfBounds runs).fault = some .outOfBounds := by decide
theorem witness_FaultsArePrecise :
    (decode (launch [0x22]).fetchBytes = .unknownOpcode ∧ (launch [0x22]).runState = .running ∧
      ∃ t, step (launch [0x22]) = .next t ∧ t.runState = .error) ∧
    (decode (launch [0x17]).fetchBytes = .truncated ∧ (launch [0x17]).runState = .running ∧
      ∃ t, step (launch [0x17]) = .next t ∧ t.runState = .error) ∧
    ((strictly (launch [0x03, 0x11, 0x00])).runState = .running ∧
      ∃ t, step (strictly (launch [0x03, 0x11, 0x00])) = .next t ∧ t.runState = .error) :=
  ⟨⟨by decide, by decide, _, rfl, by decide⟩,
    ⟨by decide, by decide, _, rfl, by decide⟩, by decide, _, rfl, by decide⟩
theorem witness_SequentialAdvance : runs.CapacityInRange ∧ runs.runState = .running ∧ runs.pc.toNat < runs.capacity ∧
    decode runs.fetchBytes = .instr .inc [] ∧ destCode .inc ≠ some 0x10 ∧ ∃ t, step runs = .next t :=
  ⟨by decide, by decide, by decide, by decide, by decide, _, rfl⟩
theorem witness_PcOperandIsTheNextAddress : (launch []).runState = .running ∧
    ((launch [0x03, 0x10, 0x10]).InstrAt (.movR 0x10 0x10) ∧ (0x10 : Byte).toNat ≤ 0x10) ∧
    (launch [0x04, 0xFF, 0x10]).InstrAt (.movBIToR 0xFF 0x10) ∧
    (launch [0x05, 0xFF, 0xFF, 0x10]).InstrAt (.movWIToR 0xFFFF 0x10) ∧
    (launch [0x06, 0x00, 0x00, 0x00, 0x00, 0x10]).InstrAt (.movDIToR 0 0x10) :=
  ⟨by decide, ⟨⟨by decide, by decide⟩, by decide⟩, ⟨by decide, by decide⟩,
    ⟨by decide, by decide⟩, by decide, by decide⟩
theorem witness_StoredByteIsFetchedNext : (launch [0x0C, 0x20, 0x10, 0x00]).CapacityInRange ∧
    (launch [0x0C, 0x20, 0x10, 0x00]).runState = .running ∧
    (launch [0x0C, 0x20, 0x10, 0x00]).InstrAt (.saveBIToR 0x20 0x10) ∧
    (launch [0x0C, 0x20, 0x10, 0x00]).pc.toNat + 3 < (launch [0x0C, 0x20, 0x10, 0x00]).capacity :=
  ⟨by decide, by decide, ⟨by decide, by decide⟩, by decide⟩
theorem witness_ZeroBytesOnlyAdvance : (launch [0, 0, 0]).runState = .running ∧
    (launch [0, 0, 0]).pc.toNat + 3 ≤ (launch [0, 0, 0]).capacity ∧
    (launch [0, 0, 0]).mem.bytesFrom (launch [0, 0, 0]).pc.toNat 3 = [0, 0, 0] := by decide
theorem witness_SessionParametersNeverChange : ∃ t, step runsStrict = .next t := ⟨_, rfl⟩
theorem witness_StartingARunChangesOnlyTheRunState : State.reset.runState = .ready ∧ runs.runState = .running ∧
    (halt runs).runState = .halted := by decide
theorem witness_LongerBudgetSameResult : (∃ t, runSession 1 State.reset = .halted t) ∧
    ∃ f, runSession 1 (session [0x22] 64 false) = .fault f := ⟨⟨_, rfl⟩, .unknownOpcode, by decide⟩
theorem witness_RegisterAddressActsAsItsValue : runsStrict.Answers 0x10 ∧ runs.Answers 0x11 := by decide
theorem witness_StepKeepsTheInvariant : runs.Inv ∧ ∃ t, step runs = .next t := ⟨by decide, _, rfl⟩
theorem witness_NewSessionMeetsTheInvariant : (∃ t, newSession [0x20, 0x20] (some 1) true = .next t) ∧
    (State.reset.Inv ∧ ∃ t, presetReg .r0 5 State.reset = .next t) ∧
    State.reset.Inv ∧ ∃ t, presetByte 19 7 State.reset = .next t :=
  ⟨⟨_, rfl⟩, ⟨by decide, _, rfl⟩, by decide, _, rfl⟩
theorem witness_EncodeOfDecode : decode [0x04, 0xAB, 0x00, 0x21] = .instr (.movBIToR 0xAB 0x00) [0x21] := by decide
theorem witness_DecoderReadsOperandByOperand :
    (runs.CapacityInRange ∧ runs.pc.toNat < runs.capacity ∧ decode runs.fetchBytes = .instr .inc []) ∧
    ((launch [0x22]).CapacityInRange ∧ (launch [0x22]).pc.toNat < (launch [0x22]).capacity ∧
      decode (launch [0x22]).fetchBytes = .unknownOpcode) ∧
    (launch [0x17]).CapacityInRange ∧ (launch [0x17]).pc.toNat < (launch [0x17]).capacity ∧
      decode (launch [0x17]).fetchBytes = .truncated := by decide
theorem witness_PlacedInstructionRunsNext : State.reset.pc.toNat + 17 < 2 ^ 64 := by decide


end Sys2Proof.Tests
end

/-!
PROOFS. The register file: full reads and writes (10_state.md R115, R116) and the narrow merge (10_state.md R118).
-/

namespace Sys2Proof

/-! ### The merge as AND and OR of masks -/

/-- A value of `8n` bits has no bit from `8n` up. -/
theorem getLsbD_eq_false_of_fits {w : Width} {v : Qword} (hv : v.toNat < 2 ^ w.bits) {i : Nat} (hi : w.bits ≤ i) :
    v.getLsbD i = false :=
  Nat.testBit_eq_false_of_lt (Nat.lt_of_lt_of_le hv (Nat.pow_le_pow_right (by decide) hi))

/-- The mask of the low `n` bytes has exactly the bits below `8n`. -/
theorem getLsbD_lowMask (w : Width) (i : Nat) : (BitVec.ofNat 64 (2 ^ w.bits - 1)).getLsbD i = decide (i < w.bits) := by
  have hw := w.bits_le
  rw [BitVec.getLsbD_ofNat, Nat.testBit_two_pow_sub_one]
  by_cases hi : i < w.bits
  · simp [hi, Nat.lt_of_lt_of_le hi hw]
  · simp [hi]

/-- For a value of `8n` bits, a merge clears the low `n` bytes and sets them to the value. -/
theorem mergeLow_eq_and_or {w : Width} {v : Qword} (old : Qword) (hv : v.toNat < 2 ^ w.bits) :
    mergeLow w old v = (old &&& ~~~(BitVec.ofNat 64 (2 ^ w.bits - 1))) ||| v := by
  apply BitVec.eq_of_getLsbD_eq
  intro i hi
  rw [getLsbD_mergeLow, BitVec.getLsbD_or, BitVec.getLsbD_and, BitVec.getLsbD_not, getLsbD_lowMask]
  by_cases h : i < w.bits
  · simp [h]
  · rw [getLsbD_eq_false_of_fits hv (Nat.le_of_not_lt h)]
    simp [h, hi]

end Sys2Proof

namespace Sys2Proof.Machine

/-! ### The register file at the code of a register, and at a code above 0x10 -/

@[simp] theorem State.codeOk_code (s : State) (n : RegName) : s.codeOk n.code = true := by
  simp [State.codeOk]

theorem State.codeOk_of_tolerant {s : State} (c : Byte) (hs : s.strictRegs = false) : s.codeOk c = true :=
  (s.codeOk_iff c).mpr (.inr hs)

theorem State.codeOk_of_strict {s : State} {c : Byte} (hc : 0x10 < c.toNat) (hs : s.strictRegs = true) :
    s.codeOk c = false :=
  (s.codeOk_eq_false c).mpr ⟨hc, hs⟩

theorem regGet_code (s : State) (n : RegName) : regGet s n.code = .ok (s.reg n) := by
  rw [regGet_ok (s.codeOk_code n), State.codeValue_code]

theorem regSet_code (s : State) (n : RegName) (v : Qword) : regSet s n.code v = .ok (s.setReg n v) := by
  rw [regSet_ok v (s.codeOk_code n), State.setCode_code]

theorem regMergeLow_code (s : State) (n : RegName) (w : Width) (v : Qword) :
    regMergeLow s n.code w v = .ok (s.setReg n (mergeLow w (s.reg n) v)) := by
  rw [regMergeLow_ok w v (s.codeOk_code n), State.codeValue_code, State.setCode_code]

theorem regGet_tolerant_unknown {s : State} {c : Byte} (hc : 0x10 < c.toNat) (hs : s.strictRegs = false) :
    regGet s c = .ok 0 := by
  rw [regGet_ok (State.codeOk_of_tolerant c hs), s.codeValue_unknown hc]

theorem regSet_tolerant_unknown {s : State} {c : Byte} (v : Qword) (hc : 0x10 < c.toNat) (hs : s.strictRegs = false) :
    regSet s c v = .ok s := by
  rw [regSet_ok v (State.codeOk_of_tolerant c hs), s.setCode_unknown v hc]

theorem regMergeLow_tolerant_unknown {s : State} {c : Byte} (w : Width) (v : Qword) (hc : 0x10 < c.toNat)
    (hs : s.strictRegs = false) : regMergeLow s c w v = .ok s := by
  rw [regMergeLow_ok w v (State.codeOk_of_tolerant c hs), s.setCode_unknown _ hc]

/-! ### The obligations -/

/-- Settles O3: the two forms of the merge are bit facts; the register file splits into the code of a register, an unknown
code in tolerant mode and an unknown code in strict mode. -/
theorem narrowWriteKeepsHighBytes : Obligations.NarrowWriteKeepsHighBytes := by
  intro s c w old v
  refine ⟨getLsbD_mergeLow w old v, mergeLow_eq_and_or old, fun hc => ?_, regMergeLow_tolerant_unknown w v,
    fun hc hs => regMergeLow_error w v (State.codeOk_of_strict hc hs), by decide⟩
  obtain ⟨n, -, rfl⟩ := RegName.ofCode_eq_some hc
  exact ⟨n, rfl, regMergeLow_code s n w v⟩

/-- Settles O1: the same three cases; in the first, the state after the write is `setReg`, which changes one register. -/
theorem registerFileReadsAndWrites : Obligations.RegisterFileReadsAndWrites := by
  intro s c v
  refine ⟨fun hc => ?named, fun hc hs => ?strict, fun hc hs => ?tolerant⟩
  case named =>
    obtain ⟨n, -, rfl⟩ := RegName.ofCode_eq_some hc
    exact ⟨n, s.setReg n v, rfl, regGet_code s n, regSet_code s n v, s.reg_setReg_self n v,
      fun _ hn => s.reg_setReg_ne v hn, s.mem_setReg n v, rfl, rfl, rfl, rfl⟩
  case strict =>
    have hok := State.codeOk_of_strict hc hs
    exact ⟨regGet_error hok, regSet_error v hok⟩
  case tolerant =>
    exact ⟨regGet_tolerant_unknown hc hs, regSet_tolerant_unknown v hc hs⟩

end Sys2Proof.Machine

/-!
PROOFS. Memory: typed reads and writes (20_memory.md R138 to R141), an access that does not fit (R145), and the boot image
(R154).
-/

namespace Sys2Proof

/-- Truncation keeps a value of `8n` bits. -/
theorem trunc_eq_self {w : Width} {v : Qword} (hv : v.toNat < 2 ^ w.bits) : trunc w v = v := by
  apply BitVec.eq_of_toNat_eq
  rw [trunc_toNat, Nat.mod_eq_of_lt hv]

end Sys2Proof

namespace Sys2Proof.Machine

/-! ### Typed accesses, in the spec's terms -/

theorem State.loaded_eq_joinLE (s : State) (w : Width) (addr : Qword) :
    s.loaded w addr = joinLE (s.mem.bytesFrom addr.toNat w.bytes) :=
  (Memory.joinLE_bytesFrom _ _ _).symm

/-- A loaded value has `8n` bits (20_memory.md R138). -/
theorem State.loaded_lt (s : State) (w : Width) (addr : Qword) : s.loaded w addr < 2 ^ w.bits := by
  have h := joinLE_lt (s.mem.bytesFrom addr.toNat w.bytes)
  rwa [Memory.length_bytesFrom, ← Width.two_pow_bits, ← State.loaded_eq_joinLE] at h

/-- No typed read is cut off by the 64 bits that hold its value. -/
theorem State.toNat_ofNat_loaded (s : State) (w : Width) (addr : Qword) :
    (BitVec.ofNat 64 (s.loaded w addr)).toNat = s.loaded w addr := by
  rw [BitVec.toNat_ofNat, State.loaded_eq_joinLE]
  exact Nat.mod_eq_of_lt (joinLE_bytesFrom_lt s.mem addr.toNat w)

theorem memRead_eq_loaded {s : State} {addr : Qword} {w : Width} (h : addr.toNat + w.bytes ≤ s.capacity) :
    memRead s addr w = .ok (BitVec.ofNat 64 (s.loaded w addr)) := by
  rw [memRead_ok h, State.loaded_eq_joinLE]

/-- The split bytes of a value, stored from `addr` up, are what `State.Stored` asks for. -/
theorem State.stored_setBytes (s : State) (w : Width) (addr v : Qword) :
    s.Stored w addr v { s with mem := s.mem.setBytes addr.toNat (splitLE w.bytes v.toNat) } := by
  refine ⟨fun k hk => ?inside, fun x hx => ?outside, fun _ => rfl, rfl, rfl, rfl, rfl⟩
  case inside =>
    rw [← ofNat_div_eq_extract]
    exact Memory.byteAt_setBytes_inside _ _ _ _ _ (getElem?_splitLE _ _ _ hk)
  case outside =>
    exact Memory.byteAt_setBytes_outside _ _ (by rwa [length_splitLE])

/-- A typed read after a typed write of the same width gives the low bytes of the value written. -/
theorem memRead_of_memWrite {s t : State} {addr : Qword} {w : Width} {v : Qword} (h : memWrite s addr w v = .ok t) :
    memRead t addr w = .ok (trunc w v) := by
  obtain ⟨hb, rfl⟩ := memWrite_inv h
  have hspan := Memory.bytesFrom_setBytes s.mem addr.toNat (splitLE w.bytes v.toNat)
  rw [length_splitLE] at hspan
  rw [memRead_ok (by exact hb), hspan, joinLE_splitLE, ← Width.two_pow_bits, ← trunc_toNat, BitVec.ofNat_toNat,
    BitVec.setWidth_eq]

/-- Settles O4: the little-endian join of the bytes read is the spec's sum, and 64 bits hold it. -/
theorem typedReadIsLittleEndianSum : Obligations.TypedReadIsLittleEndianSum := by
  intro s addr w
  refine ⟨fun h => ⟨_, memRead_eq_loaded h, s.toNat_ofNat_loaded w addr, ?_⟩, memRead_error⟩
  rw [s.toNat_ofNat_loaded]
  exact s.loaded_lt w addr

/-- Settles O5: a write that fits stores the split bytes of the value and nothing else. -/
theorem typedWriteStoresItsBytesOnly : Obligations.TypedWriteStoresItsBytesOnly :=
  fun s addr w v => ⟨fun h => ⟨_, memWrite_ok v h, s.stored_setBytes w addr v⟩, memWrite_error v⟩

/-- Settles O6: the read gives the truncation of the value, which is the value when it has `8n` bits. -/
theorem typedWriteThenReadReturnsTheValue : Obligations.TypedWriteThenReadReturnsTheValue := by
  intro s addr w v hb hv
  have hw := memWrite_ok v hb
  exact ⟨_, hw, by rw [memRead_of_memWrite hw, trunc_eq_self hv]⟩

/-! ### Saves and Loads whose span does not fit -/

/-- An instruction with a store operand is the Save of its first operand to it (42_save.md R198). -/
theorem exec_of_storeOperand {i : Instr} {dst : Operand} {w : Width} (s : State) (h : storeOperand i = some (dst, w)) :
    ∃ src ∈ i.operands, exec i s = save w src dst s := by
  cases i <;> cases h <;> exact ⟨_, List.mem_cons_self, rfl⟩

/-- An instruction with a load operand is the Load from it (43_load.md R217). -/
theorem exec_of_loadOperand {i : Instr} {src : Operand} {w : Width} (s : State) (h : loadOperand i = some (src, w)) :
    ∃ dd, exec i s = load w src dd s := by
  cases i <;> cases h <;> exact ⟨_, rfl⟩

/-- A source operand resolves where the register file answers for its code. -/
theorem srcValue_of_answers {s : State} {src : Operand} (w : Width) (h : ∀ c, src = .reg c → s.Answers c) :
    ∃ v, srcValue s src w = .ok v := by
  cases src with
  | imm _ v => exact ⟨v, rfl⟩
  | reg c => exact ⟨_, srcValue_reg_ok w ((s.codeOk_iff c).mpr (h c rfl))⟩

theorem save_outOfBounds {s : State} {src dst : Operand} {w : Width} {v a : Qword} (hv : srcValue s src w = .ok v)
    (ha : addrValue s dst = .ok a) (hb : s.capacity < a.toNat + w.bytes) :
    save w src dst s = .next (raiseFault .outOfBounds s) := by
  simp only [save, hv, ha, memWrite_error v hb, finish_error]

theorem load_outOfBounds {s : State} {src : Operand} {w : Width} {a : Qword} (dd : Byte) (ha : addrValue s src = .ok a)
    (hb : s.capacity < a.toNat + w.bytes) : load w src dd s = .next (raiseFault .outOfBounds s) := by
  simp only [load, ha, memRead_error hb, finish_error]

/-- Settles O8: the bounds test comes before any byte or register is written, and raising the fault keeps memory and
registers. -/
theorem outOfBoundsAccessTransfersNothing : Obligations.OutOfBoundsAccessTransfersNothing := by
  intro s i op w a v hb
  refine ⟨memRead_error hb, memWrite_error v hb, fun hi hans ha => ?save, fun hi ha => ?load⟩
  case save =>
    obtain ⟨src, hsrc, he⟩ := exec_of_storeOperand s hi
    obtain ⟨x, hx⟩ := srcValue_of_answers w fun c hc => hans c (hc ▸ hsrc)
    exact ⟨_, he.trans (save_outOfBounds hx ha hb), rfl, rfl, fun _ => rfl, fun _ => rfl⟩
  case load =>
    obtain ⟨dd, he⟩ := exec_of_loadOperand s hi
    exact ⟨_, he.trans (load_outOfBounds dd ha hb), rfl, rfl, fun _ => rfl, fun _ => rfl⟩

/-! ### The boot image -/

/-- A session boots an image that fits with both start registers at the image's offset (70_reset_and_hazards.md R252). -/
theorem bootSession_ok {s : State} {image : List Byte} (h : image.length ≤ s.capacity) :
    bootSession s image =
      (({ s with mem := s.mem.setBytes (s.capacity - image.length) image } : State).setReg .programStartLocation
        (BitVec.ofNat 64 (s.capacity - image.length))).setReg .programCounter
        (BitVec.ofNat 64 (s.capacity - image.length)) := by
  simp only [bootSession, loadBootImage_ok h]

/-- An explicit capacity and an image in the range of 64 bits make a session (70_reset_and_hazards.md R251). -/
theorem newSession_some {image : List Byte} {C : Nat} (strict : Bool) (hC : C < 2 ^ 64) (hL : image.length < 2 ^ 64) :
    newSession image (some C) strict = .next (bootSession (blankSession C strict) image) :=
  if_pos ⟨hC, hL⟩

/-- Settles O9: the image is stored as one span that ends at the capacity; a new session boots it into blank memory. -/
theorem imageLoadsAtTheTop : Obligations.ImageLoadsAtTheTop := by
  intro s image
  refine ⟨loadBootImage_error, fun h => ⟨_, loadBootImage_ok h, fun i hi => ?copied, fun x hx => ?outside, fun _ => rfl,
    rfl, rfl, rfl, rfl⟩, fun C strict hL hC => ⟨_, newSession_some strict hC (Nat.lt_of_le_of_lt hL hC), ?start⟩⟩
  case copied =>
    have hbyte := List.getElem?_eq_getElem hi
    rw [Memory.byteAt_setBytes_inside _ _ _ _ _ hbyte, hbyte]
  case outside =>
    exact Memory.byteAt_setBytes_outside _ _ (by rwa [Nat.sub_add_cancel h])
  case start =>
    rw [bootSession_ok (s := blankSession C strict) hL, State.reg_setReg_ne _ _ (by decide), State.reg_setReg_self,
      State.reg_setReg_self]
    exact ⟨rfl, rfl⟩

end Sys2Proof.Machine

/-!
PROOFS. Decoding at the end of memory: the row of the opcode byte gives the length, and the bytes below the capacity decide
between an instruction and OutOfBounds (30_encoding.md R171).
-/

namespace Sys2Proof

/-- The opcodes of the table are distinct, so the opcode of a row selects that row (30_encoding.md R164). -/
theorem rowOfOpcode_of_mem {r : Row} (h : r ∈ opcodeTable) : rowOfOpcode r.opcode = some r := by
  have hall : ∀ r ∈ opcodeTable, rowOfOpcode r.opcode = some r := by decide
  exact hall r h

/-- No format is longer than what a step fetches, so only the capacity cuts an instruction off. -/
theorem Format.length_le_maxInstrBytes (f : Format) : f.length ≤ Config.maxInstrBytes := by
  cases f <;> decide

/-- An opcode byte without a row is examined before any operand (30_encoding.md R171). -/
theorem decode_unknownOpcode_of_no_row {op : Byte} (bs : List Byte) (hr : rowOfOpcode op = none) :
    decode (op :: bs) = .unknownOpcode := by
  simp only [decode, hr]

/-- Bytes that end inside the instruction their opcode selects do not hold its operands (30_encoding.md R171). -/
theorem decode_truncated_of_short {op : Byte} {bs : List Byte} {r : Row} (hr : rowOfOpcode op = some r)
    (hlen : bs.length + 1 < r.format.length) : decode (op :: bs) = .truncated := by
  have hnone : readOperands r.format.shape bs = none := by
    rw [readOperands_eq_none]
    simp only [Format.length] at hlen
    omega
  simp only [decode, hr, hnone]

/-- Bytes that reach the end of the instruction their opcode selects decode to it (30_encoding.md R170). -/
theorem decode_instr_of_fits {op : Byte} {bs : List Byte} {r : Row} (hr : rowOfOpcode op = some r)
    (hlen : r.format.length ≤ bs.length + 1) :
    ∃ i rest, decode (op :: bs) = .instr i rest ∧ i.mnemonic = r.mnemonic := by
  rcases decode_cons_cases op bs with ⟨hnone, -⟩ | ⟨r', hr', hshort, -⟩ | ⟨r', i, rest, hr', hm, -, hd⟩
  · simp [hr] at hnone
  · obtain rfl := Option.some.inj (hr.symm.trans hr')
    omega
  · obtain rfl := Option.some.inj (hr.symm.trans hr')
    exact ⟨i, rest, hd, hm⟩

end Sys2Proof

namespace Sys2Proof.Machine

/-- Settles O38: the fetch sees the opcode byte and the bytes up to the capacity or the longest format, so the instruction is
cut off exactly when it would end past the capacity. -/
theorem operandsPastTheEndFault : Obligations.OperandsPastTheEndFault := by
  intro s hrun hpc
  obtain ⟨bs, hfetch, hlen⟩ := s.fetchBytes_cons hpc
  refine ⟨fun r hmem hop => ⟨fun hpast => ?past, fun hfits => ?fits⟩, fun hno => ?unknown⟩
  case past =>
    have hd : decode s.fetchBytes = .truncated := by
      rw [hfetch, ← hop]
      exact decode_truncated_of_short (rowOfOpcode_of_mem hmem) (by omega)
    exact ⟨_, step_truncated hrun hpc hd, rfl, rfl⟩
  case fits =>
    have hmax := r.format.length_le_maxInstrBytes
    rw [hfetch, ← hop]
    exact decode_instr_of_fits (rowOfOpcode_of_mem hmem) (by omega)
  case unknown =>
    have hd : decode s.fetchBytes = .unknownOpcode := by
      rw [hfetch]
      exact decode_unknownOpcode_of_no_row bs (rowOfOpcode_none.mpr hno)
    exact ⟨_, step_unknownOpcode hrun hpc hd, rfl, rfl⟩

end Sys2Proof.Machine

/-!
PROOFS. The end of a run: Running becomes Halted when the program counter is at or above the capacity before a decode, and by
nothing else (40_cycle.md R177).
-/

namespace Sys2Proof.Machine

/-! ### The run state after an execute phase and after a step -/

/-- An instruction leaves the run state alone or raises a fault; there is no halt opcode (40_cycle.md R177). -/
theorem exec_runState {i : Instr} {s t : State} (h : exec i s = .next t) :
    t.runState = s.runState ∨ t.runState = .error := by
  rcases exec_cases s i with ⟨dd, v, -, -, he⟩ | ⟨-, w, addr, v, -, -, -, he⟩ | ⟨v, -, he⟩ | ⟨f, -, he⟩ <;>
    obtain rfl := Host.Outcome.next.inj (he.symm.trans h)
  · exact .inl (s.runState_setCode dd v)
  · exact .inl rfl
  · exact .inl (s.runState_setReg .rcount v)
  · exact .inr (runState_raiseFault f s)

/-- Below the capacity a running session stays Running or ends in Error (40_cycle.md R176). -/
theorem step_runState_of_pc_lt {s t : State} (hrun : s.runState = .running) (hpc : s.pc.toNat < s.capacity)
    (h : step s = .next t) : t.runState = .running ∨ t.runState = .error := by
  cases hd : decode s.fetchBytes with
  | unknownOpcode =>
    obtain rfl := Host.Outcome.next.inj ((step_unknownOpcode hrun hpc hd).symm.trans h)
    exact .inr (runState_raiseFault .unknownOpcode s)
  | truncated =>
    obtain rfl := Host.Outcome.next.inj ((step_truncated hrun hpc hd).symm.trans h)
    exact .inr (runState_raiseFault .outOfBounds s)
  | instr i rest =>
    have he := exec_runState ((step_instr hrun hpc hd).symm.trans h)
    rwa [State.runState_afterFetch, hrun] at he

/-! ### A run that halts at its first check -/

theorem runSession_ready {s : State} (k : Nat) (h : s.runState = .ready) : runSession k s = runLoop k (startRun s) := by
  simp only [runSession, h]

theorem runLoop_halted {s : State} (k : Nat) (h : s.runState = .halted) : runLoop k s = .halted s := by
  cases k <;> simp only [runLoop, h]

theorem runLoop_next {s t : State} (k : Nat) (hrun : s.runState = .running) (h : step s = .next t) :
    runLoop (k + 1) s = runLoop k t := by
  simp only [runLoop, hrun, h]

/-- A Ready session whose program counter is at or above the capacity runs to Halted and executes nothing. -/
theorem runSession_halts_at_first_check {s : State} (k : Nat) (hready : s.runState = .ready)
    (hpc : s.capacity ≤ s.pc.toNat) : runSession (k + 1) s = .halted (halt s) :=
  calc runSession (k + 1) s
    _ = runLoop (k + 1) (startRun s) := runSession_ready (k + 1) hready
    _ = runLoop k (halt (startRun s)) := runLoop_next k rfl (step_halts rfl hpc)
    _ = .halted (halt s) := runLoop_halted k rfl

/-- Everything a created session is (70_reset_and_hazards.md R251, R252). -/
theorem newSession_inv {image : List Byte} {capacity : Option Nat} {strict : Bool} {s : State}
    (h : newSession image capacity strict = .next s) :
    sessionCapacity image capacity < 2 ^ 64 ∧ image.length < 2 ^ 64 ∧
      s = bootSession (blankSession (sessionCapacity image capacity) strict) image := by
  unfold newSession at h
  split at h
  case isTrue hlt =>
    obtain ⟨hC, hL⟩ := hlt
    exact ⟨hC, hL, (Host.Outcome.next.inj h).symm⟩
  case isFalse => cases h

/-- The offset of the empty image is the capacity, so its session starts at the end of memory. -/
theorem bootSession_empty_pc (C : Nat) (strict : Bool) (hC : C < 2 ^ 64) :
    (bootSession (blankSession C strict) []).pc.toNat = C := by
  rw [bootSession_ok (s := blankSession C strict) (image := []) (Nat.zero_le C), State.pc_setReg_pc,
    BitVec.toNat_ofNat]
  exact Nat.mod_eq_of_lt hC

/-- Settles O36: at or above the capacity the step is `halt`; below it a step ends Running or in Error; the session of the
empty image starts with the program counter at the capacity. -/
theorem haltsExactlyAtTheCapacity : Obligations.HaltsExactlyAtTheCapacity := by
  refine ⟨fun s hrun hpc => ⟨halt s, step_halts hrun hpc, rfl, rfl, rfl, rfl⟩, fun s t hrun hpc h => ?below,
    fun capacity strict s h => ?emptyImage⟩
  case below =>
    rcases step_runState_of_pc_lt hrun hpc h with ht | ht <;> simp [ht]
  case emptyImage =>
    obtain ⟨hC, -, rfl⟩ := newSession_inv h
    have hpc := bootSession_empty_pc _ strict hC
    exact ⟨hpc, runSession_halts_at_first_check 0 rfl hpc.ge⟩

end Sys2Proof.Machine

/-!
PROOFS. Qword Moves that complete (41_move.md R188).
-/

namespace Sys2Proof.Machine

/-- A qword source register is read whole: truncation to 8 bytes keeps all 64 bits. -/
theorem srcValue_reg_qword {s : State} {c : Byte} (h : s.codeOk c = true) :
    srcValue s (.reg c) .qword = .ok (s.codeValue c) := by
  rw [srcValue_reg_ok .qword h, trunc_eq_self (w := .qword) (s.codeValue c).isLt]

/-- A qword Move completes where its source resolves and the register file answers for its destination. -/
theorem moveFull_ok {s : State} {src : Operand} {dd : Byte} {v : Qword} (hv : srcValue s src .qword = .ok v)
    (hd : s.codeOk dd = true) : moveFull src dd s = .next (s.setCode dd v) := by
  simp only [moveFull, hv, regSet_ok v hd, finish_ok]

/-- The program counter is the register of code 0x10 (10_state.md R119). -/
theorem State.pc_setCode_programCounter (s : State) (v : Qword) : (s.setCode 0x10 v).pc = v :=
  s.reg_setCode 0x10 v .programCounter

/-- Settles O18: both are the qword Move of their source, which resolves to the register's or the immediate's 64 bits. -/
theorem qwordMoveReplacesTheRegister : Obligations.QwordMoveReplacesTheRegister := by
  intro s ss dd imm hdd
  have hd : s.codeOk dd = true := (s.codeOk_iff dd).mpr hdd
  refine ⟨fun hss => ?movR, ?movI, fun hpc => hpc ▸ s.pc_setCode_programCounter imm, s.codeValue_setCode_self imm⟩
  case movR =>
    rw [exec_movR, moveFull_ok (srcValue_reg_qword ((s.codeOk_iff ss).mpr hss)) hd]
  case movI =>
    rw [exec_movI, moveFull_ok (srcValue_imm s .qword .qword imm) hd]

end Sys2Proof.Machine

/-!
PROOFS. Loads that complete (43_load.md R217).
-/

namespace Sys2Proof.Machine

/-- A write of code `c` keeps every register of another code (10_state.md R116). -/
theorem State.reg_setCode_ne (s : State) {c : Byte} (v : Qword) {n : RegName} (hn : n.code ≠ c) :
    (s.setCode c v).reg n = s.reg n := by
  rw [State.reg_setCode, if_neg hn]

/-- A byte load gives the byte itself: the sum of 20_memory.md R138 has one term. -/
theorem State.loaded_byte (s : State) (addr : Qword) : s.loaded .byte addr = (s.mem.byteAt addr.toNat).toNat := by
  simp [State.loaded, Width.bytes]

theorem addrValue_reg_ok {s : State} {c : Byte} (h : s.codeOk c = true) :
    addrValue s (.reg c) = .ok (s.codeValue c) := by
  rw [addrValue_reg, regGet_ok h]

/-- A Load completes where its address resolves, its span fits and the register file answers for its destination. -/
theorem load_ok {s : State} {src : Operand} {w : Width} {dd : Byte} {a : Qword} (ha : addrValue s src = .ok a)
    (hd : s.codeOk dd = true) (hb : a.toNat + w.bytes ≤ s.capacity) :
    load w src dd s = .next (s.setCode dd (BitVec.ofNat 64 (s.loaded w a))) := by
  simp only [load, ha, memRead_eq_loaded hb, regSet_ok _ hd, finish_ok]

/-- Settles O23: each instruction is the Load of its width from an address operand that resolves to the register's value or to
the immediate; a loaded value has `8n` bits, and the write of the destination code is the whole effect. -/
theorem loadReplacesTheWholeRegister : Obligations.LoadReplacesTheWholeRegister := by
  intro s aa dd addr haa hdd
  have hd : s.codeOk dd = true := (s.codeOk_iff dd).mpr (.inl hdd)
  have hreg := addrValue_reg_ok ((s.codeOk_iff aa).mpr (.inl haa))
  have himm := addrValue_imm s .qword addr
  refine ⟨fun hb => (exec_loadBRToR s aa dd).trans (load_ok hreg hd hb),
    fun hb => (exec_loadWRToR s aa dd).trans (load_ok hreg hd hb),
    fun hb => (exec_loadDRToR s aa dd).trans (load_ok hreg hd hb),
    fun hb => (exec_loadQRToR s aa dd).trans (load_ok hreg hd hb),
    fun hb => (exec_loadBIToR s addr dd).trans (load_ok himm hd hb),
    fun hb => (exec_loadWIToR s addr dd).trans (load_ok himm hd hb),
    fun hb => (exec_loadDIToR s addr dd).trans (load_ok himm hd hb),
    fun hb => (exec_loadQIToR s addr dd).trans (load_ok himm hd hb),
    fun w => s.loaded_lt w addr, fun v => ?write, fun hAB => ?byteAB⟩
  case write =>
    exact ⟨s.codeValue_setCode_self v hdd, fun _ hn => s.reg_setCode_ne v hn, s.mem_setCode dd v⟩
  case byteAB =>
    rw [s.loaded_byte, hAB]
    rfl

end Sys2Proof.Machine

/-!
PROOFS. ImageTooLarge and UnknownOpcode: what raises each fault, the state it leaves, and the answer of a session that is in
Error (60_exceptions.md R232, R233, R239).
-/

namespace Sys2Proof

/-- UnknownOpcode is decided by the opcode byte alone, whatever follows it (30_encoding.md R166). -/
theorem decode_eq_unknownOpcode_iff (op : Byte) (bs : List Byte) :
    decode (op :: bs) = .unknownOpcode ↔ rowOfOpcode op = none := by
  refine ⟨fun h => ?_, decode_unknownOpcode_of_no_row bs⟩
  rcases decode_cons_cases op bs with ⟨hnone, -⟩ | ⟨_, -, -, hd⟩ | ⟨_, _, _, -, -, -, hd⟩
  · exact hnone
  · cases hd.symm.trans h
  · cases hd.symm.trans h

end Sys2Proof

namespace Sys2Proof.Machine

/-! ### Which faults a step can latch -/

/-- Below the capacity the fetched bytes are an unknown opcode exactly when the byte at the program counter has no row. -/
theorem State.decode_fetchBytes_eq_unknownOpcode_iff (s : State) (hpc : s.pc.toNat < s.capacity) :
    decode s.fetchBytes = .unknownOpcode ↔ ∀ r ∈ opcodeTable, r.opcode ≠ s.mem.byteAt s.pc.toNat := by
  obtain ⟨bs, hfetch, -⟩ := s.fetchBytes_cons hpc
  rw [hfetch, decode_eq_unknownOpcode_iff, rowOfOpcode_none]

/-- An instruction keeps the fault latch or sets it to one of the two execute-phase faults (60_exceptions.md R234, R235). -/
theorem exec_fault_cases {i : Instr} {s t : State} (h : exec i s = .next t) :
    t.fault = s.fault ∨ t.fault = some .outOfBounds ∨ t.fault = some .invalidRegisterCode := by
  rcases exec_cases s i with ⟨dd, v, -, -, he⟩ | ⟨-, w, addr, v, -, -, -, he⟩ | ⟨v, -, he⟩ | ⟨f, hf, he⟩ <;>
    obtain rfl := Host.Outcome.next.inj (he.symm.trans h)
  · exact .inl (s.fault_setCode dd v)
  · exact .inl rfl
  · exact .inl (s.fault_setReg .rcount v)
  · simpa using .inr hf

/-- A step keeps the fault latch or sets it to UnknownOpcode, on an unknown opcode only, to OutOfBounds or to
InvalidRegisterCode; ImageTooLarge is not among them. -/
theorem step_fault_cases {s t : State} (h : step s = .next t) :
    t.fault = s.fault ∨
    (decode s.fetchBytes = .unknownOpcode ∧ t.fault = some .unknownOpcode) ∨
    t.fault = some .outOfBounds ∨ t.fault = some .invalidRegisterCode := by
  rcases step_cases h with ⟨-, rfl⟩ | ⟨-, -, rfl⟩ | ⟨-, -, hd, rfl⟩ | ⟨-, -, -, rfl⟩ | ⟨-, -, _, _, -, he⟩
  · exact .inl (fault_startRun s)
  · exact .inl (fault_halt s)
  · exact .inr (.inl ⟨hd, fault_raiseFault .unknownOpcode s⟩)
  · exact .inr (.inr (.inl (fault_raiseFault .outOfBounds s)))
  · exact (exec_fault_cases he).imp_right .inr

/-- A step that sets the latch to UnknownOpcode found an unknown opcode (60_exceptions.md R233). -/
theorem decode_unknownOpcode_of_step {s t : State} (h : step s = .next t) (hs : s.fault ≠ some .unknownOpcode)
    (ht : t.fault = some .unknownOpcode) : decode s.fetchBytes = .unknownOpcode := by
  rcases step_fault_cases h with hf | ⟨hd, -⟩ | hf | hf
  · exact absurd (hf.symm.trans ht) hs
  · exact hd
  · cases hf.symm.trans ht
  · cases hf.symm.trans ht

/-- No step sets the latch to ImageTooLarge, which belongs to session creation (60_exceptions.md R232). -/
theorem step_fault_ne_imageTooLarge {s t : State} (h : step s = .next t) (hs : s.fault ≠ some .imageTooLarge) :
    t.fault ≠ some .imageTooLarge := by
  rcases step_fault_cases h with hf | ⟨-, hf⟩ | hf | hf <;> rw [hf]
  · exact hs
  · decide
  · decide
  · decide

/-! ### Runs of a session in Error -/

theorem runLoop_error {s : State} {f : Fault} (k : Nat) (h : s.runState = .error) (hf : s.fault = some f) :
    runLoop k s = .fault f := by
  cases k <;> simp [runLoop, h, hf]

theorem runSession_error {s : State} {f : Fault} (k : Nat) (h : s.runState = .error) (hf : s.fault = some f) :
    runSession k s = .fault f := by
  simp [runSession, h, hf]

/-! ### Sessions of an image that does not fit -/

/-- An image longer than the capacity raises the fault on the blank session, before any byte is copied
(60_exceptions.md R232). -/
theorem bootSession_imageTooLarge {s : State} {image : List Byte} (h : s.capacity < image.length) :
    bootSession s image = raiseFault .imageTooLarge s := by
  simp only [bootSession, loadBootImage_error h]

theorem fault_bootSession_ok {s : State} {image : List Byte} (h : image.length ≤ s.capacity) :
    (bootSession s image).fault = s.fault := by
  rw [bootSession_ok h, State.fault_setReg, State.fault_setReg]

/-! ### The obligations -/

/-- Settles O10: the oversized session is the blank one with the fault raised, and a session in Error answers its fault; the
default capacity is the image length plus 20, which always fits. -/
theorem oversizedImageNeverStarts : Obligations.OversizedImageNeverStarts := by
  refine ⟨fun image C strict hC hL => ?oversized, fun image strict t h => ?default,
    fun s t _ hs h => step_fault_ne_imageTooLarge h hs⟩
  case oversized =>
    have hnew := newSession_some strict (hC.trans hL) hL
    rw [bootSession_imageTooLarge (s := blankSession C strict) hC] at hnew
    exact ⟨_, hnew, rfl, rfl, rfl, step_error rfl rfl, fun k => runSession_error k rfl rfl⟩
  case default =>
    obtain ⟨-, -, rfl⟩ := newSession_inv h
    exact fault_bootSession_ok (Nat.le_add_right image.length Config.defaultHeadroom)

/-- Settles O37: the step raises the fault on the state as it was, and a session in Error answers its fault; conversely a step
that latches UnknownOpcode found a byte without a row. -/
theorem unknownOpcodeLeavesTheState : Obligations.UnknownOpcodeLeavesTheState := by
  intro s hrun hpc
  have hiff := s.decode_fetchBytes_eq_unknownOpcode_iff hpc
  refine ⟨fun hno => ?unknown, fun ⟨r, hmem, hop⟩ hs t h ht => ?known⟩
  case unknown =>
    have hstep := step_unknownOpcode hrun hpc (hiff.mpr hno)
    refine ⟨hstep, step_error rfl rfl, fun k => ?_⟩
    rw [runLoop_next k hrun hstep]
    exact runLoop_error k rfl rfl
  case known =>
    exact hiff.mp (decode_unknownOpcode_of_step h hs ht) r hmem hop

end Sys2Proof.Machine

/-!
PROOFS. What an instruction writes, once for all instructions, and the session invariant (10_state.md R130 to R132;
20_memory.md R137, R139).
-/

namespace Sys2Proof.Machine

/-! ### The frame of an instruction -/

/-- The destination code is one of the register operands. -/
theorem reg_mem_operands_of_destCode {i : Instr} {dd : Byte} (h : destCode i = some dd) :
    Operand.reg dd ∈ i.operands := by
  cases i <;> cases h <;> simp [Instr.operands]

/-- An instruction with a store operand has no destination register (40_cycle.md R184). -/
theorem destCode_of_storeOperand {i : Instr} {p : Operand × Width} (h : storeOperand i = some p) : destCode i = none := by
  cases i <;> cases h <;> rfl

/-- An execute phase changes a register only as the destination, or RCOUNT by Inc and Dec (10_state.md R114, R124). -/
theorem exec_reg_cases {i : Instr} {s t : State} (h : exec i s = .next t) (n : RegName) :
    t.reg n = s.reg n ∨ destCode i = some n.code ∨ (n = .rcount ∧ (i = .inc ∨ i = .dec)) := by
  rcases exec_cases s i with ⟨dd, v, -, hd, he⟩ | ⟨-, w, addr, v, -, -, -, he⟩ | ⟨v, hi, he⟩ | ⟨f, -, he⟩ <;>
    obtain rfl := Host.Outcome.next.inj (he.symm.trans h)
  · by_cases hn : n.code = dd
    · exact .inr (.inl (hn ▸ hd))
    · exact .inl (s.reg_setCode_ne v hn)
  · exact .inl rfl
  · by_cases hn : n = .rcount
    · exact .inr (.inr ⟨hn, hi⟩)
    · exact .inl (s.reg_setReg_ne v hn)
  · exact .inl (reg_raiseFault f s n)

/-- An execute phase keeps the capacity and the register policy (10_state.md section 1). -/
theorem exec_parameters {i : Instr} {s t : State} (h : exec i s = .next t) :
    t.capacity = s.capacity ∧ t.strictRegs = s.strictRegs := by
  rcases exec_cases s i with ⟨dd, v, -, -, he⟩ | ⟨-, w, addr, v, -, -, -, he⟩ | ⟨v, -, he⟩ | ⟨f, -, he⟩ <;>
    obtain rfl := Host.Outcome.next.inj (he.symm.trans h)
  · exact ⟨s.capacity_setCode dd v, s.strictRegs_setCode dd v⟩
  · exact ⟨rfl, rfl⟩
  · exact ⟨rfl, rfl⟩
  · exact ⟨rfl, rfl⟩

/-- An execute phase leaves the run state and the fault latch alone, or raises a fault on the state as it was
(40_cycle.md R183). -/
theorem exec_fault_or_kept {i : Instr} {s t : State} (h : exec i s = .next t) :
    (t.runState = s.runState ∧ t.fault = s.fault) ∨
    (∃ f, (f = .outOfBounds ∨ f = .invalidRegisterCode) ∧ t = raiseFault f s) := by
  rcases exec_cases s i with ⟨dd, v, -, -, he⟩ | ⟨-, w, addr, v, -, -, -, he⟩ | ⟨v, -, he⟩ | ⟨f, hf, he⟩ <;>
    obtain rfl := Host.Outcome.next.inj (he.symm.trans h)
  · exact .inl ⟨s.runState_setCode dd v, s.fault_setCode dd v⟩
  · exact .inl ⟨rfl, rfl⟩
  · exact .inl ⟨rfl, rfl⟩
  · exact .inr ⟨f, hf, rfl⟩

/-- A step keeps the capacity and the register policy. -/
theorem step_parameters {s t : State} (h : step s = .next t) :
    t.capacity = s.capacity ∧ t.strictRegs = s.strictRegs := by
  rcases step_cases h with ⟨-, rfl⟩ | ⟨-, -, rfl⟩ | ⟨-, -, -, rfl⟩ | ⟨-, -, -, rfl⟩ | ⟨-, -, i, rest, -, he⟩
  · exact ⟨rfl, rfl⟩
  · exact ⟨rfl, rfl⟩
  · exact ⟨rfl, rfl⟩
  · exact ⟨rfl, rfl⟩
  · exact exec_parameters (s := s.afterFetch rest) he

/-! ### The session invariant -/

/-- The invariant speaks of no register. -/
theorem State.inv_setReg {s : State} (h : s.Inv) (n : RegName) (v : Qword) : (s.setReg n v).Inv := h

theorem State.inv_setCode {s : State} (h : s.Inv) (c : Byte) (v : Qword) : (s.setCode c v).Inv := by
  unfold State.setCode
  split
  · exact h
  · exact h

/-- Raising a fault sets the latch and Error together (60_exceptions.md R239). -/
theorem State.inv_raiseFault {s : State} (h : s.Inv) (f : Fault) : (raiseFault f s).Inv := by
  obtain ⟨hwf, hin, hcap, -⟩ := h
  exact ⟨hwf, hin, hcap, rfl⟩

/-- A store below the capacity keeps the canonical form and the bound. -/
theorem State.inv_setBytes {s : State} (h : s.Inv) {a : Nat} {bs : List Byte} (hb : a + bs.length ≤ s.capacity) :
    ({ s with mem := s.mem.setBytes a bs } : State).Inv := by
  obtain ⟨hwf, hin, hcap, hf⟩ := h
  exact ⟨Memory.wf_setBytes hwf a bs, Memory.addr_setBytes hin hb, hcap, hf⟩

/-- A change of the run state from and to a state other than Error keeps the invariant. -/
theorem State.inv_runState {s : State} (h : s.Inv) {r : RunState} (hs : s.runState ≠ .error) (hr : r ≠ .error) :
    ({ s with runState := r } : State).Inv := by
  obtain ⟨hwf, hin, hcap, hf⟩ := h
  refine ⟨hwf, hin, hcap, hf.trans ?_⟩
  rw [decide_eq_false hs, decide_eq_false hr]

theorem exec_inv {i : Instr} {s t : State} (hs : s.Inv) (h : exec i s = .next t) : t.Inv := by
  rcases exec_cases s i with ⟨dd, v, -, -, he⟩ | ⟨-, w, addr, v, -, -, hb, he⟩ | ⟨v, -, he⟩ | ⟨f, -, he⟩ <;>
    obtain rfl := Host.Outcome.next.inj (he.symm.trans h)
  · exact State.inv_setCode hs dd v
  · exact State.inv_setBytes hs (by rwa [length_splitLE])
  · exact State.inv_setReg hs .rcount v
  · exact State.inv_raiseFault hs f

theorem bootSession_inv {s : State} (hs : s.Inv) (image : List Byte) : (bootSession s image).Inv := by
  by_cases hfit : image.length ≤ s.capacity
  · rw [bootSession_ok hfit]
    exact State.inv_setReg (State.inv_setReg (State.inv_setBytes hs (Nat.sub_add_cancel hfit).le) _ _) _ _
  · rw [bootSession_imageTooLarge (Nat.lt_of_not_le hfit)]
    exact State.inv_raiseFault hs .imageTooLarge

theorem blankSession_inv {C : Nat} (strict : Bool) (hC : C < 2 ^ 64) : (blankSession C strict).Inv :=
  ⟨rfl, List.forall_mem_nil _, hC, rfl⟩

theorem presetReg_inv {s t : State} {n : RegName} {v : Qword} (hs : s.Inv) (h : presetReg n v s = .next t) : t.Inv := by
  unfold presetReg at h
  split at h
  case h_1 =>
    obtain rfl := Host.Outcome.next.inj h
    exact State.inv_setReg hs n v
  all_goals cases h

theorem presetByte_inv {s t : State} {a : Nat} {b : Byte} (hs : s.Inv) (h : presetByte a b s = .next t) : t.Inv := by
  unfold presetByte at h
  split at h
  case h_1 =>
    split at h
    case isTrue ha =>
      obtain rfl := Host.Outcome.next.inj h
      exact State.inv_setBytes (bs := [b]) hs ha
    case isFalse => cases h
  all_goals cases h

/-! ### The obligations -/

/-- Settles O49: a start and a halt move between run states other than Error, a decode-phase fault latches, and an execute
phase writes a register, stores below the capacity or latches. -/
theorem stepKeepsTheInvariant : Obligations.StepKeepsTheInvariant := by
  intro s t hs h
  rcases step_cases h with ⟨hr, rfl⟩ | ⟨hr, -, rfl⟩ | ⟨-, -, -, rfl⟩ | ⟨-, -, -, rfl⟩ | ⟨-, -, i, rest, -, he⟩
  · exact State.inv_runState hs (by simp [hr]) (by decide)
  · exact State.inv_runState hs (by simp [hr]) (by decide)
  · exact State.inv_raiseFault hs .unknownOpcode
  · exact State.inv_raiseFault hs .outOfBounds
  · exact exec_inv (s := s.afterFetch rest) (State.inv_setReg hs .programCounter _) he

/-- Settles O51: a blank session meets the invariant, booting it stores the image below the capacity or latches a fault, and a
preset writes a register or a byte below the capacity. -/
theorem newSessionMeetsTheInvariant : Obligations.NewSessionMeetsTheInvariant := by
  refine ⟨fun image capacity strict t h => ?_, fun s t n v hs h => presetReg_inv hs h,
    fun s t a b hs h => presetByte_inv hs h⟩
  obtain ⟨hC, -, rfl⟩ := newSession_inv h
  exact bootSession_inv (blankSession_inv strict hC) image

/-- Settles O50: memory after reset lists nothing, the capacity is 20 and no fault is latched. -/
theorem resetMeetsTheInvariant : Obligations.ResetMeetsTheInvariant :=
  ⟨reset_mem_wf, List.forall_mem_nil _, by decide, rfl⟩

/-- Settles O45: neither the fetch, nor an execute phase, nor a fault writes either field. -/
theorem sessionParametersNeverChange : Obligations.SessionParametersNeverChange :=
  fun _ _ h => step_parameters h

/-- Settles O30: what each execute phase can do, at an instruction with a destination, which stores nothing. -/
theorem moveAndLoadFrame : Obligations.MoveAndLoadFrame := by
  intro i s t dd hd h
  have hreg (n : RegName) (hn : n.code ≠ dd) : t.reg n = s.reg n := by
    rcases exec_reg_cases h n with hr | hdn | ⟨-, rfl | rfl⟩
    · exact hr
    · exact absurd (Option.some.inj (hdn.symm.trans hd)) hn
    · cases hd
    · cases hd
  have hmem : t.mem = s.mem := by
    rcases exec_cases s i with ⟨dd, v, -, -, he⟩ | ⟨_, _, _, _, hstore, -⟩ | ⟨v, -, he⟩ | ⟨f, -, he⟩
    case inr.inl => cases (destCode_of_storeOperand hstore).symm.trans hd
    all_goals obtain rfl := Host.Outcome.next.inj (he.symm.trans h)
    · exact s.mem_setCode dd v
    · exact s.mem_setReg .rcount v
    · exact mem_raiseFault f s
  obtain ⟨hcap, hstrict⟩ := exec_parameters h
  refine ⟨hreg, fun x => by rw [hmem], hcap, hstrict, (exec_fault_or_kept h).imp_right ?_⟩
  rintro ⟨f, -, rfl⟩
  exact ⟨rfl, rfl⟩

/-- Settles O31: a Save stores one span at the address its operand gives, or raises a fault on the state as it was. -/
theorem saveFrame : Obligations.SaveFrame := by
  intro i s t dst w hstore h
  have hreg (n : RegName) : t.reg n = s.reg n := by
    rcases exec_reg_cases h n with hr | hd | ⟨-, rfl | rfl⟩
    · exact hr
    · cases (destCode_of_storeOperand hstore).symm.trans hd
    · cases hstore
    · cases hstore
  have hmem : (∃ a v, addrValue s dst = .ok a ∧ t.mem = s.mem.setBytes a.toNat (splitLE w.bytes v)) ∨ t.mem = s.mem := by
    rcases exec_cases s i with ⟨_, v, -, hd, -⟩ | ⟨_, _, a, v, hst, ha, -, he⟩ | ⟨v, rfl | rfl, -⟩ | ⟨f, -, he⟩
    · cases (destCode_of_storeOperand hstore).symm.trans hd
    · obtain rfl := Host.Outcome.next.inj (he.symm.trans h)
      cases hst.symm.trans hstore
      exact .inl ⟨a, v, ha, rfl⟩
    · cases hstore
    · cases hstore
    · obtain rfl := Host.Outcome.next.inj (he.symm.trans h)
      exact .inr rfl
  obtain ⟨hcap, hstrict⟩ := exec_parameters h
  refine ⟨hreg, fun a ha x hx => ?outside, fun f hf x => ?noAddress, hcap, hstrict, (exec_fault_or_kept h).imp_right ?fault⟩
  case outside =>
    rcases hmem with ⟨a', v, ha', hm⟩ | hm
    · cases ha.symm.trans ha'
      rw [hm, Memory.byteAt_setBytes_outside _ _ (by rwa [length_splitLE])]
    · rw [hm]
  case noAddress =>
    rcases hmem with ⟨a', v, ha', -⟩ | hm
    · cases hf.symm.trans ha'
    · rw [hm]
  case fault =>
    rintro ⟨f, -, rfl⟩
    exact ⟨rfl, rfl, fun _ => rfl⟩

/-- Settles O32: the step decoded an instruction, since no other case of a step writes a register, and the instruction names
the register as its destination or is Inc or Dec. -/
theorem registersChangeOnlyAsDestination : Obligations.RegistersChangeOnlyAsDestination := by
  intro s t n hrun h hpc hne
  rcases step_cases h with ⟨-, rfl⟩ | ⟨-, -, rfl⟩ | ⟨-, -, -, rfl⟩ | ⟨-, -, -, rfl⟩ | ⟨-, -, i, rest, hd, he⟩
  case inr.inr.inr.inr =>
    refine ⟨i, rest, hd, (exec_reg_cases he n).resolve_left fun hr => hne ?_⟩
    rw [hr, s.reg_afterFetch_ne rest hpc]
  all_goals exact absurd rfl hne

end Sys2Proof.Machine

/-!
PROOFS. The encoder and the decoder are inverse to each other (30_encoding.md sections 1 to 5).
-/

namespace Sys2Proof

/-- The row of an instruction: it stands in the table, and its format gives the length of the encoding
(30_encoding.md R159). -/
theorem Instr.row_length (i : Instr) :
    ∃ r ∈ opcodeTable, r.mnemonic = i.mnemonic ∧ Machine.instrLength i = r.format.length := by
  obtain ⟨-, r, hrow, hlen, -⟩ := Laws.Shape.of_operands i
  obtain ⟨r', hrow', hm, -⟩ := i.mnemonic.row_spec
  obtain rfl := Option.some.inj (hrow'.symm.trans hrow)
  exact ⟨r', List.mem_of_find?_eq_some hrow, hm, hlen⟩

theorem instrLength_le_maxInstrBytes (i : Instr) : Machine.instrLength i ≤ Config.maxInstrBytes := by
  obtain ⟨r, -, -, hlen⟩ := i.row_length
  exact hlen ▸ r.format.length_le_maxInstrBytes

/-- The opcode selects the row, the operands are read back by their kinds, and they make the instruction. -/
theorem decode_encode_append (i : Instr) (rest : List Byte) : decode (encode i ++ rest) = .instr i rest := by
  obtain ⟨hkinds, hfits⟩ := i.operands_wellFormed
  obtain ⟨r, -, hm, -, hrow, hshape⟩ := i.mnemonic.row_spec
  have hread : readOperands r.format.shape (i.operands.flatMap Operand.encode ++ rest) = some (i.operands, rest) := by
    rw [hshape, ← hkinds]
    exact readOperands_encode _ rest hfits
  simp only [encode, List.cons_append, decode, hrow, hread, hm, Instr.ofOperands_operands]

theorem encode_append_of_decode {bs rest : List Byte} {i : Instr} (h : decode bs = .instr i rest) :
    encode i ++ rest = bs := by
  cases bs with
  | nil => cases h
  | cons op bs =>
    rcases decode_cons_cases op bs with ⟨-, hd⟩ | ⟨_, -, -, hd⟩ | ⟨r, i', rest', hrow, hm, hread, hd⟩
    · cases hd.symm.trans h
    · cases hd.symm.trans h
    · cases hd.symm.trans h
      obtain ⟨-, -, hop, -⟩ := rowOfOpcode_some hrow
      obtain ⟨-, -, hbytes⟩ := readOperands_inv hread
      rw [encode, hm, hop, List.cons_append, hbytes]

/-- The decoder consumes the length of the instruction. -/
theorem length_of_decode {bs rest : List Byte} {i : Instr} (h : decode bs = .instr i rest) :
    bs.length = Machine.instrLength i + rest.length := by
  rw [← encode_append_of_decode h, List.length_append, Machine.instrLength]

theorem instrLength_eq_sum (i : Instr) :
    Machine.instrLength i = 1 + ((i.operands.map Operand.kind).map OperandKind.bytes).sum := by
  rw [Machine.instrLength, encode, List.length_cons, Operand.length_flatMap_encode, Nat.add_comm]

namespace Machine

/-- Settles O52: the round trip through the row of the opcode, and the length from the same row. -/
theorem decodeOfEncode : Obligations.DecodeOfEncode :=
  fun i rest => ⟨decode_encode_append i rest, i.row_length⟩

/-- Settles O53: the row found has the opcode byte, and the operands read encode to the bytes read. -/
theorem encodeOfDecode : Obligations.EncodeOfDecode :=
  fun _ _ _ h => encode_append_of_decode h

/-- Settles O54, by evaluating the 34 rows. -/
theorem opcodeTableHasNoOverlap : Obligations.OpcodeTableHasNoOverlap := by
  unfold Obligations.OpcodeTableHasNoOverlap
  decide

/-- Settles O55: the bytes written out are the encodings of the six instructions, which decode to them. -/
theorem writtenWordsDecode : Obligations.WrittenWordsDecode :=
  ⟨decode_encode_append (.movI 1 0x00) [], decode_encode_append (.saveQIToR 9 0x0C) [],
    decode_encode_append (.saveDIToI 0xDEADBEEF 0x10) [], decode_encode_append (.loadBRToR 0x02 0x00) [],
    decode_encode_append (.loadQIToR 0x10 0x00) [], decode_encode_append .dec []⟩

end Machine

end Sys2Proof

/-!
PROOFS. The step at an instruction in memory (40_cycle.md R176, R178; 10_state.md R119 to R121), and the spec's decoder, which
reads operand by operand (30_encoding.md R170).
-/

namespace Sys2Proof.Machine

/-! ### The fetch of an instruction -/

/-- The execute phase starts with the program counter past the decoded instruction (40_cycle.md R178). -/
theorem State.afterFetch_of_decode {s : State} {i : Instr} {rest : List Byte} (h : decode s.fetchBytes = .instr i rest) :
    s.afterFetch rest = s.setReg .programCounter (s.pc + BitVec.ofNat 64 (instrLength i)) := by
  rw [State.afterFetch, length_of_decode h, Nat.add_sub_cancel, State.advancePc]

/-- A decoded instruction lies below the capacity for its full length (10_state.md R121). -/
theorem State.instrLength_le_of_decode {s : State} {i : Instr} {rest : List Byte}
    (h : decode s.fetchBytes = .instr i rest) : instrLength i ≤ s.capacity - s.pc.toNat := by
  have hlen := length_of_decode h
  rw [s.length_fetchBytes] at hlen
  omega

/-- The fetch window begins with the instruction that stands at the program counter. -/
theorem State.decode_of_instrAt {s : State} {i : Instr} (h : s.InstrAt i) : ∃ rest, decode s.fetchBytes = .instr i rest := by
  obtain ⟨hcap, hbytes⟩ := h
  have hmax := instrLength_le_maxInstrBytes i
  obtain ⟨k, hk⟩ : ∃ k, min Config.maxInstrBytes (s.capacity - s.pc.toNat) = instrLength i + k :=
    Nat.exists_eq_add_of_le (by omega)
  exact ⟨_, by rw [State.fetchBytes, hk, Memory.bytesFrom_add, hbytes, decode_encode_append]⟩

theorem State.pc_lt_of_instrAt {s : State} {i : Instr} (h : s.InstrAt i) : s.pc.toNat < s.capacity := by
  obtain ⟨hcap, -⟩ := h
  have hpos : 0 < instrLength i := Nat.succ_pos _
  omega

theorem step_of_decode {s : State} {i : Instr} {rest : List Byte} (hrun : s.runState = .running)
    (hpc : s.pc.toNat < s.capacity) (hd : decode s.fetchBytes = .instr i rest) :
    step s = exec i (s.setReg .programCounter (s.pc + BitVec.ofNat 64 (instrLength i))) := by
  rw [step_instr hrun hpc hd, State.afterFetch_of_decode hd]

theorem step_of_instrAt {s : State} {i : Instr} (hrun : s.runState = .running) (h : s.InstrAt i) :
    step s = exec i (s.setReg .programCounter (s.pc + BitVec.ofNat 64 (instrLength i))) := by
  obtain ⟨rest, hd⟩ := State.decode_of_instrAt h
  exact step_of_decode hrun (State.pc_lt_of_instrAt h) hd

/-- Settles O35: the fetch decodes to the instruction whose encoding stands there. -/
theorem stepRunsTheInstructionAtThePc : Obligations.StepRunsTheInstructionAtThePc :=
  fun _ _ hrun h => step_of_instrAt hrun h

/-- Settles O34: the step at a decoded instruction; its operands have the kinds of its opcode and fit. -/
theorem stepExecutesTheDecodedInstruction : Obligations.StepExecutesTheDecodedInstruction := by
  intro s i rest hrun hpc hd
  obtain ⟨hwf, -⟩ := Laws.Shape.of_operands i
  exact ⟨hwf, step_instr hrun hpc hd⟩

/-- Settles O41: the execute phase leaves the program counter past the instruction, which ends at or below the capacity, so the
sum does not wrap. -/
theorem sequentialAdvance : Obligations.SequentialAdvance := by
  intro s t i rest hC hrun hpc hd hdest h
  have hlen := State.instrLength_le_of_decode hd
  have hfit : s.pc.toNat + instrLength i ≤ s.capacity := by omega
  rw [step_of_decode hrun hpc hd] at h
  have htpc : t.pc = s.pc + BitVec.ofNat 64 (instrLength i) := by
    rcases exec_reg_cases h .programCounter with hreg | hdc | ⟨hn, -⟩
    · exact hreg.trans (s.pc_setReg_pc _)
    · exact absurd hdc hdest
    · cases hn
  refine ⟨?_, hfit⟩
  rw [htpc, BitVec.toNat_add, BitVec.toNat_ofNat, Nat.add_mod_mod]
  exact Nat.mod_eq_of_lt (Nat.lt_of_le_of_lt hfit hC)

/-- Settles O40: a step that ends in Error is a decode-phase fault on the state as it was, or an execute phase that raised one of
its two faults with the program counter past the instruction. -/
theorem faultsArePrecise : Obligations.FaultsArePrecise := by
  intro s t hrun h ht
  rcases step_cases h with ⟨hr, -⟩ | ⟨-, -, rfl⟩ | ⟨-, -, hd, rfl⟩ | ⟨-, -, hd, rfl⟩ | ⟨-, hpc, i, rest, hd, he⟩
  · cases hrun.symm.trans hr
  · cases ht
  · exact ⟨rfl, fun _ _ => rfl, rfl, rfl, _, rfl, step_error rfl rfl, .inl ⟨hd, rfl, rfl⟩⟩
  · exact ⟨rfl, fun _ _ => rfl, rfl, rfl, _, rfl, step_error rfl rfl, .inr (.inl ⟨hd, rfl, rfl⟩)⟩
  · rw [State.afterFetch_of_decode hd] at he
    rcases exec_fault_or_kept he with ⟨hr, -⟩ | ⟨f, hf, rfl⟩
    · rw [State.runState_setReg, hrun] at hr
      cases ht.symm.trans hr
    · exact ⟨rfl, fun n hn => s.reg_setReg_ne _ hn, rfl, rfl, f, rfl, step_error rfl rfl,
        .inr (.inr ⟨i, rest, hd, hf, s.pc_setReg_pc _⟩)⟩

/-! ### Decode(a) of the spec -/

/-- The address after a span that ends at or below the capacity does not wrap. -/
theorem State.toNat_add_of_le {s : State} (hC : s.CapacityInRange) {p : Qword} {n : Nat} (h : p.toNat + n ≤ s.capacity) :
    (p + BitVec.ofNat 64 n).toNat = p.toNat + n := by
  rw [BitVec.toNat_add, BitVec.toNat_ofNat, Nat.add_mod_mod]
  exact Nat.mod_eq_of_lt (Nat.lt_of_le_of_lt h hC)

/-- Operands that end past the capacity: the first read that does not fit raises OutOfBounds (30_encoding.md R171). -/
theorem specReadOperands_of_short {s : State} (hC : s.CapacityInRange) {ks : List OperandKind} {p : Qword}
    (hp : p.toNat ≤ s.capacity) (h : s.capacity < p.toNat + (ks.map OperandKind.bytes).sum) :
    specReadOperands s ks p = .error .outOfBounds := by
  induction ks generalizing p with
  | nil => exact absurd h (Nat.not_lt.mpr hp)
  | cons k ks ih =>
    rw [List.map_cons, List.sum_cons] at h
    have step (n : Nat) (hfit : p.toNat + n ≤ s.capacity) (hk : k.bytes = n) :
        specReadOperands s ks (p + BitVec.ofNat 64 n) = .error .outOfBounds := by
      have hq := State.toNat_add_of_le hC hfit
      exact ih (by omega) (by omega)
    cases k with
    | reg =>
      by_cases hfit : p.toNat + Width.byte.bytes ≤ s.capacity
      · have hnext : specReadOperands s ks (p + 1) = .error .outOfBounds := step 1 hfit rfl
        simp only [specReadOperands, memRead_ok hfit, hnext]
      · simp only [specReadOperands, memRead_error (Nat.lt_of_not_le hfit)]
    | imm w =>
      by_cases hfit : p.toNat + w.bytes ≤ s.capacity
      · simp only [specReadOperands, memRead_ok hfit, step w.bytes hfit rfl]
      · simp only [specReadOperands, memRead_error (Nat.lt_of_not_le hfit)]

/-- Operands read from a window of memory below the capacity are those the spec's loop reads, and the loop ends past them. -/
theorem specReadOperands_of_readOperands {s : State} (hC : s.CapacityInRange) {ks : List OperandKind} {p : Qword} {n : Nat}
    {ops : List Operand} {rest : List Byte} (hn : p.toNat + n ≤ s.capacity)
    (h : readOperands ks (s.mem.bytesFrom p.toNat n) = some (ops, rest)) :
    specReadOperands s ks p = .ok (ops, p + BitVec.ofNat 64 (ks.map OperandKind.bytes).sum) := by
  induction ks generalizing p n ops with
  | nil =>
    cases h
    simp [specReadOperands]
  | cons k ks ih =>
    rw [List.map_cons, List.sum_cons, ← BitVec.ofNat_add_ofNat, ← BitVec.add_assoc]
    cases k with
    | reg =>
      cases n with
      | zero => cases h
      | succ n =>
        have hfit : p.toNat + Width.byte.bytes ≤ s.capacity := by simp only [Width.bytes_byte]; omega
        have hq : (p + 1).toNat = p.toNat + 1 := State.toNat_add_of_le hC hfit
        rw [Memory.bytesFrom_succ, ← hq] at h
        simp only [readOperands] at h
        split at h
        case h_1 => cases h
        case h_2 ops' rest' hread =>
          cases h
          have hnext : specReadOperands s ks (p + 1) = _ := ih (by omega) hread
          have hbyte : (BitVec.ofNat 64 (joinLE (s.mem.bytesFrom p.toNat Width.byte.bytes))).setWidth 8 =
              s.mem.byteAt p.toNat := by
            simp [Memory.bytesFrom_succ]
          simp only [specReadOperands, memRead_ok hfit, hnext, hbyte]
          rfl
    | imm w =>
      simp only [readOperands, Memory.length_bytesFrom] at h
      split at h
      case isTrue => cases h
      case isFalse hlen =>
        have hw : w.bytes ≤ n := Nat.le_of_not_lt hlen
        have hfit : p.toNat + w.bytes ≤ s.capacity := by omega
        have hq := State.toNat_add_of_le hC hfit
        rw [Memory.drop_bytesFrom _ _ hw, Memory.take_bytesFrom _ _ hw, ← hq] at h
        split at h
        case h_1 => cases h
        case h_2 ops' rest' hread =>
          cases h
          simp only [specReadOperands, memRead_ok hfit, ih (by omega) hread]
          rfl

/-- The opcodes are the positions of the rows (30_encoding.md R165, log 1). -/
theorem opcodeTable_getElem? (op : Byte) : opcodeTable[op.toNat]? = rowOfOpcode op := by
  have hall : ∀ k : Fin 256, opcodeTable[k.val]? = rowOfOpcode (BitVec.ofFin k) := by decide +kernel
  exact hall op.toFin

/-- The opcode byte as `Decode(a)` reads it. -/
theorem memRead_byte {s : State} {a : Qword} (h : a.toNat < s.capacity) :
    memRead s a .byte = .ok ((s.mem.byteAt a.toNat).setWidth 64) := by
  rw [memRead_eq_loaded (w := .byte) h, s.loaded_byte, BitVec.ofNat_toNat]

theorem toNat_setWidth_byte (b : Byte) : (b.setWidth 64).toNat = b.toNat := by
  rw [BitVec.toNat_setWidth]
  exact Nat.mod_eq_of_lt (Nat.lt_trans b.isLt (by decide))

section
variable {s : State} {a : Qword} (hlt : a.toNat < s.capacity)
include hlt

theorem specDecode_of_no_row (hrow : rowOfOpcode (s.mem.byteAt a.toNat) = none) :
    specDecode s a = .error .unknownOpcode := by
  simp only [specDecode, memRead_byte hlt, toNat_setWidth_byte, opcodeTable_getElem?, hrow, ite_self]

/-- The test of `Decode(a)` on the opcode passes where the opcode has a row. -/
theorem specDecode_of_row {r : Row} (hrow : rowOfOpcode (s.mem.byteAt a.toNat) = some r) :
    specDecode s a =
      (specReadOperands s r.format.shape (a + 1)).map (fun p => (r.mnemonic, p.1, p.2)) := by
  have hop : ¬ 0x21 < (s.mem.byteAt a.toNat).toNat := by
    rw [← opcodeTable_getElem?] at hrow
    obtain ⟨hlen, -⟩ := List.getElem?_eq_some_iff.mp hrow
    exact Nat.not_lt.mpr (Nat.le_of_lt_succ hlen)
  simp only [specDecode, memRead_byte hlt, toNat_setWidth_byte, if_neg hop, opcodeTable_getElem?, hrow]
  cases specReadOperands s r.format.shape (a + 1) <;> rfl

end

/-- Settles O56: both decoders find the same row; the operands end past the capacity for both, or both read them. -/
theorem decoderReadsOperandByOperand : Obligations.DecoderReadsOperandByOperand := by
  intro s hC hpc
  obtain ⟨bs, hfetch, hlen⟩ := s.fetchBytes_cons hpc
  have hq : (s.pc + 1).toNat = s.pc.toNat + 1 := State.toNat_add_of_le hC hpc
  rcases decode_cons_cases (s.mem.byteAt s.pc.toNat) bs with
    ⟨hrow, hd⟩ | ⟨r, hrow, hshort, hd⟩ | ⟨r, i, rest, hrow, hm, hread, hd⟩
  · simp only [specDecode_of_no_row hpc hrow, hfetch, hd]
  · have hmax := r.format.length_le_maxInstrBytes
    have hpast : specReadOperands s r.format.shape (s.pc + 1) = .error .outOfBounds := by
      refine specReadOperands_of_short hC (hq.trans_le hpc) (Nat.lt_of_lt_of_eq ?_ (congrArg (· + _) hq.symm))
      rw [Nat.add_assoc]
      change s.capacity < s.pc.toNat + r.format.length
      omega
    simp only [specDecode_of_row hpc hrow, hfetch, hd, hpast, Except.map]
  · have hbs : bs = s.mem.bytesFrom (s.pc + 1).toNat bs.length := by
      rw [State.fetchBytes, ← hlen, Memory.bytesFrom_succ] at hfetch
      rw [hq]
      exact (List.tail_eq_of_cons_eq hfetch).symm
    rw [← hfetch] at hd
    have hcount : s.fetchBytes.length - rest.length = 1 + (r.format.shape.map OperandKind.bytes).sum := by
      obtain ⟨hkinds, -, -⟩ := readOperands_inv hread
      rw [length_of_decode hd, Nat.add_sub_cancel, instrLength_eq_sum, hkinds]
    have hops := specReadOperands_of_readOperands hC (by omega) (hbs ▸ hread)
    simp only [specDecode_of_row hpc hrow, hd, hops, Except.map, hm, hcount, ← BitVec.ofNat_add_ofNat, BitVec.add_assoc]
    rfl

end Sys2Proof.Machine

/-!
PROOFS. The register file in total form, the flag helpers, and the host's presets and inspector (10_state.md sections 2 and 4;
70_reset_and_hazards.md R253, R255).
-/

namespace Sys2Proof.Machine

/-- Settles O2: `RegGet` and `RegSet` where the code is answered for, and the two total functions at a register's code and at
one above 0x10. -/
theorem registerFileInTotalForm : Obligations.RegisterFileInTotalForm := by
  intro s c v
  refine ⟨fun h => ?answers, ?named, fun n n' => s.reg_setReg n n' v,
    fun hc => ⟨s.codeValue_unknown hc, s.setCode_unknown v hc⟩⟩
  case answers =>
    have hok : s.codeOk c = true := (s.codeOk_iff c).mpr h
    exact ⟨regGet_ok hok, regSet_ok v hok⟩
  case named =>
    rintro n rfl
    exact ⟨s.codeValue_code n, s.setCode_code n v⟩

/-! ### The flags -/

/-- The mask of bit `b` has that bit alone. -/
theorem getLsbD_one_shiftLeft {b i : Nat} (hi : i < 64) : (1#64 <<< b).getLsbD i = decide (i = b) := by
  rw [← BitVec.twoPow_eq, BitVec.getLsbD_twoPow]
  by_cases h : i = b
  · subst h
    simp [hi]
  · simp [h, Ne.symm h]

/-- Settles O15: both helpers write Flags, an OR or an AND NOT with the mask of one bit. -/
theorem flagHelpersTouchOneLowBit : Obligations.FlagHelpersTouchOneLowBit := by
  intro s b
  refine ⟨fun i hi => ?set, fun i hi => ?clear, Iff.rfl, fun n hn => ⟨s.reg_setReg_ne _ hn, s.reg_setReg_ne _ hn⟩, rfl, rfl⟩
  case set =>
    rw [setFlag, State.reg_setReg_self, BitVec.getLsbD_or, getLsbD_one_shiftLeft hi]
    by_cases h : i = b.val <;> simp [h]
  case clear =>
    rw [clearFlag, State.reg_setReg_self, BitVec.getLsbD_and, BitVec.getLsbD_not, getLsbD_one_shiftLeft hi]
    by_cases h : i = b.val <;> simp [h, hi]

/-! ### The host -/

theorem presetReg_ready {s : State} (n : RegName) (v : Qword) (h : s.runState = .ready) :
    presetReg n v s = .next (s.setReg n v) := by
  simp only [presetReg, h]

theorem presetReg_refused {s : State} (n : RegName) (v : Qword) (h : s.runState ≠ .ready) :
    presetReg n v s = .refused .sessionNotReady := by
  cases hr : s.runState with
  | ready => exact absurd hr h
  | _ => simp only [presetReg, hr]

theorem presetByte_ready {s : State} (a : Nat) (b : Byte) (h : s.runState = .ready) :
    presetByte a b s =
      if a < s.capacity then .next { s with mem := s.mem.setByte a b } else .refused .noSuchAddress := by
  simp only [presetByte, h]

theorem presetByte_refused {s : State} (a : Nat) (b : Byte) (h : s.runState ≠ .ready) :
    presetByte a b s = .refused .sessionNotReady := by
  cases hr : s.runState with
  | ready => exact absurd hr h
  | _ => simp only [presetByte, hr]

theorem Memory.byteAt_setByte (m : Memory) (a x : Nat) (b : Byte) :
    (m.setByte a b).byteAt x = if x = a then b else m.byteAt x := by
  split
  case isTrue h => rw [h, m.byteAt_setByte_self]
  case isFalse h => exact m.byteAt_setByte_ne b h

/-- Settles O13: in Ready a preset is one register write or one byte write below the capacity; every other run state refuses. -/
theorem hostPresetsOnlyInReady : Obligations.HostPresetsOnlyInReady := by
  intro s n v a b
  refine ⟨fun h => ⟨⟨_, presetReg_ready n v h, fun n' => s.reg_setReg n n' v, rfl, rfl, rfl, rfl, rfl⟩, fun ha => ?below,
    fun ha => ?above⟩, fun h => ⟨presetReg_refused n v h, presetByte_refused a b h⟩⟩
  case below =>
    exact ⟨_, (presetByte_ready a b h).trans (if_pos ha), fun x => s.mem.byteAt_setByte a x b, rfl, rfl, rfl, rfl, rfl⟩
  case above =>
    exact (presetByte_ready a b h).trans (if_neg (Nat.not_lt.mpr ha))

theorem inspectReg_of_ofCode {s : State} (c : Byte) (h : s.runState ≠ .running) :
    inspectReg c s = (RegName.ofCode c).elim (.error .noSuchRegister) (fun n => .ok (s.reg n)) := by
  cases hr : s.runState with
  | running => exact absurd hr h
  | _ => cases hc : RegName.ofCode c <;> simp only [inspectReg, hr, hc, Option.elim]

theorem inspectByte_outside {s : State} (a : Nat) (h : s.runState ≠ .running) :
    inspectByte a s = if a < s.capacity then .ok (s.mem.byteAt a) else .error .noSuchAddress := by
  cases hr : s.runState with
  | running => exact absurd hr h
  | _ => simp only [inspectByte, hr]

/-- Settles O14: outside Running the inspector looks up the code or the byte, and in Running it refuses first. -/
theorem inspectorReadsOutsideRunning : Obligations.InspectorReadsOutsideRunning := by
  intro s c a
  refine ⟨fun h => ⟨?named, fun hc => ?unknown, fun ha => ?below, fun ha => ?above⟩, fun h => ?running⟩
  case named =>
    rintro n rfl
    rw [inspectReg_of_ofCode _ h, RegName.ofCode_code, Option.elim_some]
  case unknown => rw [inspectReg_of_ofCode c h, RegName.ofCode_eq_none hc, Option.elim_none]
  case below => rw [inspectByte_outside a h, if_pos ha]
  case above => rw [inspectByte_outside a h, if_neg (Nat.not_lt.mpr ha)]
  case running => exact ⟨by simp only [inspectReg, h], by simp only [inspectByte, h]⟩

end Sys2Proof.Machine

/-!
PROOFS. One byte order for all widths (20_memory.md R140), and the session that `new` answers (70_reset_and_hazards.md R251,
R252).
-/

namespace Sys2Proof

/-- Dropping the low `j` bytes of a split is splitting the number without them. -/
theorem drop_splitLE {n j : Nat} (v : Nat) (h : j ≤ n) : (splitLE n v).drop j = splitLE (n - j) (v / 256 ^ j) := by
  apply List.ext_getElem?
  intro k
  rw [List.getElem?_drop]
  by_cases hk : j + k < n
  · rw [getElem?_splitLE _ _ _ hk, getElem?_splitLE _ _ _ (by omega), Nat.div_div_eq_div_mul, Nat.pow_add]
  · rw [List.getElem?_eq_none (by simpa using hk), List.getElem?_eq_none (by simp; omega)]

theorem take_splitLE {n j : Nat} (v : Nat) (h : j ≤ n) : (splitLE n v).take j = splitLE j v := by
  apply List.ext_getElem?
  intro k
  by_cases hk : k < j
  · rw [List.getElem?_take_of_lt hk, getElem?_splitLE _ _ _ hk, getElem?_splitLE _ _ _ (by omega)]
  · rw [List.getElem?_eq_none (by simp; omega), List.getElem?_eq_none (by simpa using hk)]

/-- Bytes `j` to `j + n - 1` of a value, as bits. -/
theorem toNat_extractLsb'_bytes (v : Qword) (j n : Nat) :
    (v.extractLsb' (8 * j) (8 * n)).toNat = v.toNat / 256 ^ j % 256 ^ n := by
  rw [BitVec.extractLsb'_toNat, Nat.shiftRight_eq_div_pow, Nat.pow_mul, Nat.pow_mul]

end Sys2Proof

namespace Sys2Proof.Machine

/-- A narrower read inside the span of a write gives those bytes of the value. -/
theorem memRead_inside_memWrite {s t : State} {a v : Qword} {w : Width} (hC : s.CapacityInRange)
    (h : memWrite s a w v = .ok t) (w' : Width) (j : Nat) (hj : j + w'.bytes ≤ w.bytes) :
    memRead t (a + BitVec.ofNat 64 j) w' = .ok ((v.extractLsb' (8 * j) (8 * w'.bytes)).setWidth 64) := by
  obtain ⟨hb, rfl⟩ := memWrite_inv h
  have ha : (a + BitVec.ofNat 64 j).toNat = a.toNat + j := State.toNat_add_of_le hC (by omega)
  have hspan : (s.mem.setBytes a.toNat (splitLE w.bytes v.toNat)).bytesFrom (a.toNat + j) w'.bytes =
      splitLE w'.bytes (v.toNat / 256 ^ j) := by
    have hall := Memory.bytesFrom_setBytes s.mem a.toNat (splitLE w.bytes v.toNat)
    rw [length_splitLE] at hall
    rw [← Memory.take_bytesFrom _ _ (Nat.le_sub_of_add_le' hj), ← Memory.drop_bytesFrom _ _ (by omega), hall,
      drop_splitLE _ (by omega), take_splitLE _ (by omega)]
  have hfit : (a + BitVec.ofNat 64 j).toNat + w'.bytes ≤ s.capacity := by omega
  rw [memRead_ok (by exact hfit), ha, hspan, joinLE_splitLE, ← toNat_extractLsb'_bytes, BitVec.ofNat_toNat]

/-- Settles O7: the three reads lie inside the span of the qword write. -/
theorem narrowerReadsSeeTheSameBytes : Obligations.NarrowerReadsSeeTheSameBytes := by
  intro s t a v hC h
  have hread := memRead_inside_memWrite hC h
  refine ⟨fun k hk => hread .byte k (by simp only [Width.bytes]; omega), ?low, hread .dword 4 (by decide)⟩
  case low =>
    have h0 := hread .dword 0 (by decide)
    rwa [BitVec.add_zero] at h0

/-! ### New sessions -/

/-- A capacity and an image in the range of 64 bits make a session (70_reset_and_hazards.md R251). -/
theorem newSession_next {image : List Byte} {capacity : Option Nat} (strict : Bool)
    (hC : sessionCapacity image capacity < 2 ^ 64) (hL : image.length < 2 ^ 64) :
    newSession image capacity strict = .next (bootSession (blankSession (sessionCapacity image capacity) strict) image) :=
  if_pos ⟨hC, hL⟩

/-- Settles O11: an image that fits is booted into blank memory, and only the two start registers are written. -/
theorem newSessionState : Obligations.NewSessionState := by
  rintro image capacity strict C hdef hC hL
  obtain rfl : C = sessionCapacity image capacity := hdef
  have hboot := bootSession_ok (s := blankSession (sessionCapacity image capacity) strict) hL
  refine ⟨_, newSession_next strict hC (Nat.lt_of_le_of_lt hL hC), ?_⟩
  rw [hboot]
  refine ⟨rfl, rfl, rfl, rfl, fun n => ?registers, fun i hi => ?image, fun x hx => ?below⟩
  case registers =>
    rw [State.reg_setReg, State.reg_setReg]
    by_cases hpc : n = .programCounter
    · rw [if_pos hpc, if_pos (.inr hpc)]
      rfl
    · by_cases hstart : n = .programStartLocation
      · rw [if_neg hpc, if_pos hstart, if_pos (.inl hstart)]
        rfl
      · rw [if_neg hpc, if_neg hstart, if_neg (not_or.mpr ⟨hstart, hpc⟩)]
        exact Regs.get_zero n
  case image =>
    have hbyte := List.getElem?_eq_getElem hi
    exact hbyte.trans (congrArg some (Memory.byteAt_setBytes_inside [] _ _ _ _ hbyte).symm)
  case below =>
    exact Memory.byteAt_setBytes_outside [] image (.inl hx)

/-- Settles O12: the empty image fits its default capacity of 20, so the session is the booted one, which is `State.reset`. -/
theorem resetIsTheEmptyImageSession : Obligations.ResetIsTheEmptyImageSession :=
  ⟨newSession_next (image := []) (capacity := none) false (by decide) (by decide), rfl⟩

end Sys2Proof.Machine

/-!
PROOFS. Moves, Saves and Loads that complete, with an unknown code in tolerant mode and in strict mode (41_move.md, 42_save.md,
43_load.md section 1; 10_state.md R117), and the counter instructions (44_incdec.md).
-/

namespace Sys2Proof.Machine

/-! ### Operands -/

theorem srcValue_tolerant_unknown {s : State} {c : Byte} (w : Width) (hc : 0x10 < c.toNat) (hs : s.strictRegs = false) :
    srcValue s (.reg c) w = .ok 0 := by
  rw [srcValue_reg_ok w (State.codeOk_of_tolerant c hs), s.codeValue_unknown hc, trunc_eq_self]
  exact Nat.two_pow_pos w.bits

theorem addrValue_tolerant_unknown {s : State} {c : Byte} (hc : 0x10 < c.toNat) (hs : s.strictRegs = false) :
    addrValue s (.reg c) = .ok 0 :=
  regGet_tolerant_unknown hc hs

theorem addrValue_reg_error {s : State} {c : Byte} (h : s.codeOk c = false) :
    addrValue s (.reg c) = .error .invalidRegisterCode :=
  regGet_error h

/-! ### Each operation depends on its operands through their values -/

theorem moveNarrow_congr {s : State} {src src' : Operand} {w : Width} (dd : Byte)
    (h : srcValue s src w = srcValue s src' w) : moveNarrow w src dd s = moveNarrow w src' dd s := by
  simp only [moveNarrow, h]

theorem moveFull_congr {s : State} {src src' : Operand} (dd : Byte)
    (h : srcValue s src .qword = srcValue s src' .qword) : moveFull src dd s = moveFull src' dd s := by
  simp only [moveFull, h]

theorem save_congr_src {s : State} {src src' : Operand} {w : Width} (dst : Operand)
    (h : srcValue s src w = srcValue s src' w) : save w src dst s = save w src' dst s := by
  simp only [save, h]

theorem save_congr_dst {s : State} {dst dst' : Operand} (w : Width) (src : Operand)
    (h : addrValue s dst = addrValue s dst') : save w src dst s = save w src dst' s := by
  simp only [save, h]

theorem load_congr {s : State} {src src' : Operand} (w : Width) (dd : Byte)
    (h : addrValue s src = addrValue s src') : load w src dd s = load w src' dd s := by
  simp only [load, h]

/-! ### Completion -/

/-- A narrow Move completes where its source resolves and the register file answers for its destination
(41_move.md R187). -/
theorem moveNarrow_ok {s : State} {src : Operand} {w : Width} {dd : Byte} {v : Qword} (hv : srcValue s src w = .ok v)
    (hd : s.codeOk dd = true) : moveNarrow w src dd s = .next (s.setCode dd (mergeLow w (s.codeValue dd) v)) := by
  simp only [moveNarrow, hv, regMergeLow_ok w v hd, finish_ok]

/-- From a register, the merge takes the low bytes of its whole value. -/
theorem moveNarrow_reg_ok {s : State} {ss dd : Byte} (w : Width) (hs : s.codeOk ss = true) (hd : s.codeOk dd = true) :
    moveNarrow w (.reg ss) dd s = .next (s.setCode dd (mergeLow w (s.codeValue dd) (s.codeValue ss))) := by
  rw [moveNarrow_ok (srcValue_reg_ok w hs) hd, mergeLow_trunc]

/-- A Save completes where its operands resolve and its span fits (42_save.md R198). -/
theorem save_ok {s : State} {src dst : Operand} {w : Width} {v a : Qword} (hv : srcValue s src w = .ok v)
    (ha : addrValue s dst = .ok a) (hb : a.toNat + w.bytes ≤ s.capacity) :
    save w src dst s = .next { s with mem := s.mem.setBytes a.toNat (splitLE w.bytes v.toNat) } := by
  simp only [save, hv, ha, memWrite_ok v hb, finish_ok]

theorem save_stored {s : State} {src dst : Operand} {w : Width} {v a : Qword} (hv : srcValue s src w = .ok v)
    (ha : addrValue s dst = .ok a) (hb : a.toNat + w.bytes ≤ s.capacity) :
    ∃ t, save w src dst s = .next t ∧ s.Stored w a v t :=
  ⟨_, save_ok hv ha hb, s.stored_setBytes w a v⟩

/-- From a register, the low bytes of its whole value are stored (log 13). -/
theorem save_reg_stored {s : State} {ss : Byte} {dst : Operand} {w : Width} {a : Qword} (hs : s.codeOk ss = true)
    (ha : addrValue s dst = .ok a) (hb : a.toNat + w.bytes ≤ s.capacity) :
    ∃ t, save w (.reg ss) dst s = .next t ∧ s.Stored w a (s.codeValue ss) t := by
  refine ⟨_, save_ok (srcValue_reg_ok w hs) ha hb, ?_⟩
  rw [splitLE_trunc]
  exact s.stored_setBytes w a (s.codeValue ss)

/-- Settles O16: each is the narrow Move of its width from a register. -/
theorem narrowMoveFromRegister : Obligations.NarrowMoveFromRegister := by
  intro s ss dd hss hdd
  have hs := (s.codeOk_iff ss).mpr hss
  have hd := (s.codeOk_iff dd).mpr hdd
  exact ⟨moveNarrow_reg_ok .byte hs hd, moveNarrow_reg_ok .word hs hd, moveNarrow_reg_ok .dword hs hd⟩

/-- Settles O17: each is the narrow Move of its width from an immediate, which resolves to itself. -/
theorem narrowMoveFromImmediate : Obligations.NarrowMoveFromImmediate := by
  intro s imm8 imm16 imm32 dd hdd
  have hd := (s.codeOk_iff dd).mpr hdd
  have hv (w : Width) (v : Qword) : srcValue s (.imm w v) w = .ok v := srcValue_imm s w w v
  exact ⟨moveNarrow_ok (hv .byte _) hd, moveNarrow_ok (hv .word _) hd, moveNarrow_ok (hv .dword _) hd⟩

/-- Settles O19: the Save of each width from a register to the address a register holds. -/
theorem saveRegisterAtRegisterAddress : Obligations.SaveRegisterAtRegisterAddress := by
  intro s ss aa hss haa
  have hs := (s.codeOk_iff ss).mpr hss
  have ha := addrValue_reg_ok ((s.codeOk_iff aa).mpr haa)
  exact ⟨save_reg_stored (w := .byte) hs ha, save_reg_stored (w := .word) hs ha, save_reg_stored (w := .dword) hs ha,
    save_reg_stored (w := .qword) hs ha⟩

/-- Settles O20: the Save of each width from an immediate to the address a register holds. -/
theorem saveImmediateAtRegisterAddress : Obligations.SaveImmediateAtRegisterAddress := by
  intro s imm8 imm16 imm32 imm64 aa haa
  have ha := addrValue_reg_ok ((s.codeOk_iff aa).mpr haa)
  have hv (w : Width) (v : Qword) : srcValue s (.imm w v) w = .ok v := srcValue_imm s w w v
  exact ⟨save_stored (hv .byte _) ha, save_stored (hv .word _) ha, save_stored (hv .dword _) ha,
    save_stored (hv .qword _) ha⟩

/-- Settles O21: the Save of each width from a register to an immediate address. -/
theorem saveRegisterAtImmediateAddress : Obligations.SaveRegisterAtImmediateAddress := by
  intro s ss addr hss
  have hs := (s.codeOk_iff ss).mpr hss
  have ha := addrValue_imm s .qword addr
  exact ⟨save_reg_stored (w := .byte) hs ha, save_reg_stored (w := .word) hs ha, save_reg_stored (w := .dword) hs ha,
    save_reg_stored (w := .qword) hs ha⟩

/-- Settles O22: the Save of each width from an immediate to an immediate address. -/
theorem saveImmediateAtImmediateAddress : Obligations.SaveImmediateAtImmediateAddress := by
  intro s imm8 imm16 imm32 imm64 addr
  have ha := addrValue_imm s .qword addr
  have hv (w : Width) (v : Qword) : srcValue s (.imm w v) w = .ok v := srcValue_imm s w w v
  exact ⟨save_stored (hv .byte _) ha, save_stored (hv .word _) ha, save_stored (hv .dword _) ha,
    save_stored (hv .qword _) ha⟩

/-- Settles O48: an address register the register file answers for resolves to the same address as the immediate. -/
theorem registerAddressActsAsItsValue : Obligations.RegisterAddressActsAsItsValue := by
  intro s ss aa dd imm8 imm16 imm32 imm64 haa
  have h : addrValue s (.reg aa) = addrValue s (.imm .qword (s.codeValue aa)) :=
    addrValue_reg_ok ((s.codeOk_iff aa).mpr haa)
  have hsave (w : Width) (src : Operand) : save w src (.reg aa) s = save w src (.imm .qword (s.codeValue aa)) s :=
    save_congr_dst w src h
  have hload (w : Width) : load w (.reg aa) dd s = load w (.imm .qword (s.codeValue aa)) dd s := load_congr w dd h
  simp [hsave, hload]

/-! ### An unknown code in tolerant mode -/

section
variable {s : State} {c : Byte} (hs : s.strictRegs = false) (hc : 0x10 < c.toNat)
include hs hc

theorem moveNarrow_to_tolerant_unknown {src : Operand} {w : Width} {v : Qword} (hv : srcValue s src w = .ok v) :
    moveNarrow w src c s = .next s := by
  rw [moveNarrow_ok hv (State.codeOk_of_tolerant c hs), s.setCode_unknown _ hc]

theorem moveFull_to_tolerant_unknown {src : Operand} {v : Qword} (hv : srcValue s src .qword = .ok v) :
    moveFull src c s = .next s := by
  rw [moveFull_ok hv (State.codeOk_of_tolerant c hs), s.setCode_unknown _ hc]

theorem load_to_tolerant_unknown {src : Operand} {w : Width} {a : Qword} (ha : addrValue s src = .ok a)
    (hb : a.toNat + w.bytes ≤ s.capacity) : load w src c s = .next s := by
  rw [load_ok ha (State.codeOk_of_tolerant c hs) hb, s.setCode_unknown _ hc]

end

/-- Settles O26: an unknown source resolves to 0 as the immediate 0 does, and a write to an unknown destination is dropped. -/
theorem tolerantMovesIgnoreUnknownCodes : Obligations.TolerantMovesIgnoreUnknownCodes := by
  intro s c ss dd imm8 imm16 imm32 imm64 hs hc
  have hfrom (w : Width) : moveNarrow w (.reg c) dd s = moveNarrow w (.imm w 0) dd s :=
    moveNarrow_congr dd (srcValue_tolerant_unknown w hc hs)
  have hfromFull : moveFull (.reg c) dd s = moveFull (.imm .qword 0) dd s :=
    moveFull_congr dd (srcValue_tolerant_unknown .qword hc hs)
  have hreg (w : Width) := srcValue_reg_ok w (State.codeOk_of_tolerant ss hs)
  have himm (w : Width) (v : Qword) : srcValue s (.imm w v) w = .ok v := srcValue_imm s w w v
  exact ⟨hfrom .byte, hfrom .word, hfrom .dword, hfromFull,
    fun _ => moveNarrow_to_tolerant_unknown hs hc (hreg .byte), moveNarrow_to_tolerant_unknown hs hc (himm .byte _),
    fun _ => moveNarrow_to_tolerant_unknown hs hc (hreg .word), moveNarrow_to_tolerant_unknown hs hc (himm .word _),
    fun _ => moveNarrow_to_tolerant_unknown hs hc (hreg .dword), moveNarrow_to_tolerant_unknown hs hc (himm .dword _),
    fun _ => moveFull_to_tolerant_unknown hs hc (hreg .qword), moveFull_to_tolerant_unknown hs hc (himm .qword _)⟩

/-- Settles O27: an unknown source or address resolves to 0 as the immediate 0 does. -/
theorem tolerantSavesIgnoreUnknownCodes : Obligations.TolerantSavesIgnoreUnknownCodes := by
  intro s c ss aa imm8 imm16 imm32 imm64 addr hs hc
  have hfrom (w : Width) (dst : Operand) : save w (.reg c) dst s = save w (.imm w 0) dst s :=
    save_congr_src dst (srcValue_tolerant_unknown w hc hs)
  have hat (w : Width) (src : Operand) : save w src (.reg c) s = save w src (.imm .qword 0) s :=
    save_congr_dst w src (addrValue_tolerant_unknown hc hs)
  simp [hfrom, hat]

/-- Settles O28: an unknown address resolves to 0; a Load into an unknown code still tests its span, then drops the value. -/
theorem tolerantLoadsIgnoreUnknownCodes : Obligations.TolerantLoadsIgnoreUnknownCodes := by
  intro s c aa dd addr hs hc
  have hzero : addrValue s (.reg c) = addrValue s (.imm .qword 0) := addrValue_tolerant_unknown hc hs
  have hreg : addrValue s (.reg aa) = addrValue s (.imm .qword (s.codeValue aa)) :=
    addrValue_reg_ok (State.codeOk_of_tolerant aa hs)
  have himm := addrValue_imm s .qword addr
  exact ⟨load_congr .byte dd hzero, load_to_tolerant_unknown (w := .byte) hs hc himm,
    load_outOfBounds (w := .byte) c himm, load_congr .byte c hreg,
    load_congr .word dd hzero, load_to_tolerant_unknown (w := .word) hs hc himm,
    load_outOfBounds (w := .word) c himm, load_congr .word c hreg,
    load_congr .dword dd hzero, load_to_tolerant_unknown (w := .dword) hs hc himm,
    load_outOfBounds (w := .dword) c himm, load_congr .dword c hreg,
    load_congr .qword dd hzero, load_to_tolerant_unknown (w := .qword) hs hc himm,
    load_outOfBounds (w := .qword) c himm, load_congr .qword c hreg⟩

/-! ### An unknown code in strict mode -/

section
variable {s : State} {c : Byte} (hc : s.codeOk c = false)
include hc

theorem moveNarrow_from_invalid (w : Width) (dd : Byte) :
    moveNarrow w (.reg c) dd s = .next (raiseFault .invalidRegisterCode s) := by
  simp only [moveNarrow, srcValue_reg_error w hc, finish_error]

/-- The source is resolved first, and its only fault is the same one. -/
theorem moveNarrow_to_invalid (w : Width) (src : Operand) :
    moveNarrow w src c s = .next (raiseFault .invalidRegisterCode s) := by
  cases hv : srcValue s src w with
  | error f => simp only [moveNarrow, hv, srcValue_error hv, finish_error]
  | ok v => simp only [moveNarrow, hv, regMergeLow_error w v hc, finish_error]

theorem moveFull_from_invalid (dd : Byte) : moveFull (.reg c) dd s = .next (raiseFault .invalidRegisterCode s) := by
  simp only [moveFull, srcValue_reg_error .qword hc, finish_error]

theorem moveFull_to_invalid (src : Operand) : moveFull src c s = .next (raiseFault .invalidRegisterCode s) := by
  cases hv : srcValue s src .qword with
  | error f => simp only [moveFull, hv, srcValue_error hv, finish_error]
  | ok v => simp only [moveFull, hv, regSet_error v hc, finish_error]

theorem save_from_invalid (w : Width) (dst : Operand) :
    save w (.reg c) dst s = .next (raiseFault .invalidRegisterCode s) := by
  simp only [save, srcValue_reg_error w hc, finish_error]

/-- The address is resolved before the bounds test, whatever the source does. -/
theorem save_at_invalid (w : Width) (src : Operand) : save w src (.reg c) s = .next (raiseFault .invalidRegisterCode s) := by
  cases hv : srcValue s src w with
  | error f => simp only [save, hv, srcValue_error hv, finish_error]
  | ok v => simp only [save, hv, addrValue_reg_error hc, finish_error]

theorem load_at_invalid (w : Width) (dd : Byte) : load w (.reg c) dd s = .next (raiseFault .invalidRegisterCode s) := by
  simp only [load, addrValue_reg_error hc, finish_error]

/-- The access of a Load comes before the check of its destination (43_load.md R218). -/
theorem load_to_invalid {src : Operand} {a : Qword} (ha : addrValue s src = .ok a) (w : Width) {n : Nat}
    (hn : w.bytes = n) :
    load w src c s = .next (raiseFault (if a.toNat + n ≤ s.capacity then .invalidRegisterCode else .outOfBounds) s) := by
  subst hn
  split
  case isTrue hb => simp only [load, ha, memRead_ok hb, regSet_error _ hc, finish_error]
  case isFalse hb => exact load_outOfBounds c ha (Nat.lt_of_not_le hb)

end

/-- Settles O29: the register file refuses the code where the operation reads or writes it. -/
theorem strictModeFaultsOnUnknownCodes : Obligations.StrictModeFaultsOnUnknownCodes := by
  intro s c r imm8 imm16 imm32 imm64 addr hs hunknown
  have hc := State.codeOk_of_strict hunknown hs
  have hinto := load_to_invalid hc (addrValue_imm s .qword addr)
  have hload (w : Width) (h : r.toNat ≤ 0x10) : load w (.reg r) c s = load w (.imm .qword (s.codeValue r)) c s :=
    load_congr w c (addrValue_reg_ok ((s.codeOk_iff r).mpr (.inl h)))
  simp +contextual [moveNarrow_from_invalid hc, moveNarrow_to_invalid hc, moveFull_from_invalid hc, moveFull_to_invalid hc,
    save_from_invalid hc, save_at_invalid hc, load_at_invalid hc, hload,
    hinto .byte (n := 1) rfl, hinto .word (n := 2) rfl, hinto .dword (n := 4) rfl, hinto .qword (n := 8) rfl]

/-! ### Inc and Dec -/

/-- Settles O24: both write RCOUNT alone. -/
theorem counterInstructionsWrap : Obligations.CounterInstructionsWrap := by
  intro s
  refine ⟨⟨_, exec_inc s, ?inc, fun n hn => s.reg_setReg_ne _ hn, rfl, rfl, rfl, rfl, rfl⟩,
    ⟨_, exec_dec s, ?dec, fun n hn => s.reg_setReg_ne _ hn, rfl, rfl, rfl, rfl, rfl⟩⟩
  case inc =>
    rw [State.reg_setReg_self, BitVec.toNat_add]
    rfl
  case dec =>
    rw [State.reg_setReg_self, BitVec.toNat_sub, Nat.add_comm]
    rfl

/-- A second write of the register that gives its first value back restores the state. -/
theorem State.setReg_setReg_reg (s : State) (n : RegName) (v : Qword) : (s.setReg n v).setReg n (s.reg n) = s := by
  rw [State.setReg_setReg, State.setReg_reg]

/-- Settles O25: the second write gives RCOUNT its value back. -/
theorem incAndDecUndoEachOther : Obligations.IncAndDecUndoEachOther := by
  refine fun s t => ⟨fun h => ?incDec, fun h => ?decInc⟩
  case incDec =>
    obtain rfl := Host.Outcome.next.inj h
    rw [exec_dec, State.reg_setReg_self, BitVec.add_sub_cancel, State.setReg_setReg_reg]
  case decInc =>
    obtain rfl := Host.Outcome.next.inj h
    rw [exec_inc, State.reg_setReg_self, BitVec.sub_add_cancel, State.setReg_setReg_reg]

end Sys2Proof.Machine

/-!
PROOFS. Steps and runs: an operand that is the program counter (10_state.md R120, R121), a store seen by the next fetch
(20_memory.md R151), the run loop's states (10_state.md R131; 70_reset_and_hazards.md R254), and an instruction placed by the
host (log 22).
-/

namespace Sys2Proof.Machine

/-! ### The program counter as an operand -/

theorem State.codeValue_setReg_programCounter (s : State) (v : Qword) :
    (s.setReg .programCounter v).codeValue 0x10 = v :=
  ((s.setReg .programCounter v).codeValue_code .programCounter).trans (s.reg_setReg_self .programCounter v)

theorem State.codeOk_programCounter (s : State) : s.codeOk 0x10 = true :=
  s.codeOk_code .programCounter

/-- A narrow Move of an immediate into ProgramCounter merges into the address of the next instruction. -/
theorem exists_step_moveNarrow_programCounter {s : State} {i : Instr} {w w' : Width} {v : Qword} {n : Nat}
    (hrun : s.runState = .running) (hi : s.InstrAt i) (he : ∀ u, exec i u = moveNarrow w (.imm w' v) 0x10 u)
    (hn : instrLength i = n) : ∃ t, step s = .next t ∧ t.pc = mergeLow w (s.pc + BitVec.ofNat 64 n) v := by
  have hstep := step_of_instrAt hrun hi
  rw [he, moveNarrow_ok (srcValue_imm _ w w' v) (State.codeOk_programCounter _),
    State.codeValue_setReg_programCounter, hn] at hstep
  exact ⟨_, hstep, State.pc_setCode_programCounter _ _⟩

/-- Settles O42: the execute phase reads the program counter past the instruction. -/
theorem pcOperandIsTheNextAddress : Obligations.PcOperandIsTheNextAddress := by
  intro s dd imm8 imm16 imm32 hrun
  refine ⟨fun hi hdd => ?movR,
    fun hi => exists_step_moveNarrow_programCounter (n := 3) hrun hi (fun u => exec_movBIToR u imm8 0x10) rfl,
    fun hi => exists_step_moveNarrow_programCounter (n := 4) hrun hi (fun u => exec_movWIToR u imm16 0x10) rfl,
    fun hi => exists_step_moveNarrow_programCounter (n := 6) hrun hi (fun u => exec_movDIToR u imm32 0x10) rfl⟩
  case movR =>
    have hd (u : State) : u.codeOk dd = true := (u.codeOk_iff dd).mpr (.inl hdd)
    have hstep := step_of_instrAt hrun hi
    rw [exec_movR, moveFull_ok (srcValue_reg_qword (State.codeOk_programCounter _)) (hd _),
      State.codeValue_setReg_programCounter] at hstep
    exact ⟨_, hstep, State.codeValue_setCode_self _ _ hdd⟩

/-! ### A store over the next instruction -/

theorem extractLsb'_setWidth_byte (b : Byte) : (b.setWidth 64).extractLsb' 0 8 = b := by
  apply BitVec.eq_of_toNat_eq
  rw [BitVec.extractLsb'_toNat, toNat_setWidth_byte, Nat.shiftRight_zero]
  exact Nat.mod_eq_of_lt b.isLt

/-- Settles O43: the byte stored at the next address heads the fetch window of the next step; 0x20 is the encoding of Inc. -/
theorem storedByteIsFetchedNext : Obligations.StoredByteIsFetchedNext := by
  intro s imm hC hrun hi hnext
  have hpc : (s.pc + 3).toNat = s.pc.toNat + 3 := State.toNat_add_of_le hC hnext.le
  have haddr : addrValue (s.setReg .programCounter (s.pc + 3)) (.reg 0x10) = .ok (s.pc + 3) := by
    rw [addrValue_reg_ok (State.codeOk_programCounter _), State.codeValue_setReg_programCounter]
  have hfit : (s.pc + 3).toNat + Width.byte.bytes ≤ (s.setReg .programCounter (s.pc + 3)).capacity := by
    rw [hpc]
    exact hnext
  obtain ⟨t, ht, hbyte, -, hreg, hrunT, -, hcap, -⟩ :=
    save_stored (s := s.setReg .programCounter (s.pc + 3)) (w := .byte) (srcValue_imm _ .byte .byte (imm.setWidth 64))
      haddr hfit
  have htpc : t.pc = s.pc + 3 := (hreg .programCounter).trans (s.pc_setReg_pc _)
  have hlt : t.pc.toNat < t.capacity := by
    rw [htpc, hpc, hcap]
    exact hnext
  have himm : t.mem.byteAt t.pc.toNat = imm := by
    rw [htpc]
    exact (hbyte 0 Nat.one_pos).trans (extractLsb'_setWidth_byte imm)
  obtain ⟨bs, hfetch, -⟩ := t.fetchBytes_cons hlt
  rw [himm] at hfetch
  refine ⟨t, bs, (step_of_instrAt hrun hi).trans ht, htpc, hfetch, ?_⟩
  rintro rfl
  have hdecode : decode t.fetchBytes = .instr .inc bs := hfetch ▸ decode_encode_append .inc bs
  rw [step_of_decode (hrunT.trans hrun) hlt hdecode, htpc, BitVec.add_assoc]
  rfl

/-! ### Zero bytes -/

/-- A write of the value a code reads as changes nothing. -/
theorem State.setCode_codeValue (s : State) (c : Byte) : s.setCode c (s.codeValue c) = s := by
  unfold State.setCode State.codeValue
  cases RegName.ofCode c with
  | none => rfl
  | some n => exact s.setReg_reg n

/-- Settles O44: the bytes are the encoding of MovBRToR R0, R0, which merges R0 into itself. -/
theorem zeroBytesOnlyAdvance : Obligations.ZeroBytesOnlyAdvance := by
  intro s hrun hcap hbytes
  have hi : s.InstrAt (.movBRToR 0x00 0x00) := ⟨hcap, hbytes⟩
  have hok (u : State) : u.codeOk 0x00 = true := u.codeOk_code .r0
  rw [step_of_instrAt hrun hi, exec_movBRToR, moveNarrow_reg_ok .byte (hok _) (hok _), mergeLow_self,
    State.setCode_codeValue]
  rfl

/-! ### Run states -/

/-- Settles O39: the answers of a step in Halted and in Error, neither of them a next state. -/
theorem terminalSessionsHaveNoStep : Obligations.TerminalSessionsHaveNoStep := by
  refine fun s => ⟨step_halted, fun f hr hf => step_error hr hf, fun hterm t h => ?_⟩
  have hnot : s.runState = .ready ∨ s.runState = .running := by
    rcases step_cases h with ⟨hr, -⟩ | ⟨hr, -⟩ | ⟨hr, -⟩ | ⟨hr, -⟩ | ⟨hr, -⟩
    · exact .inl hr
    all_goals exact .inr hr
  rcases hterm with hs | hs <;> rcases hnot with hr | hr <;> cases hs.symm.trans hr

/-- Settles O46: the step from Ready is `startRun`; a run asks for Ready. -/
theorem startingARunChangesOnlyTheRunState : Obligations.StartingARunChangesOnlyTheRunState := by
  refine fun s k => ⟨fun hr => ⟨step_ready hr, runSession_ready k hr⟩, ?_⟩
  rintro (hr | hr) <;> simp only [runSession, hr]

/-- A run in Error answers from the latch alone, whatever its budget. -/
theorem runLoop_of_error {s : State} (k m : Nat) (h : s.runState = .error) : runLoop k s = runLoop m s := by
  cases k <;> cases m <;> simp only [runLoop, h]

/-- A run that has not used up its budget gives the same result with a larger one. -/
theorem runLoop_add {k : Nat} {s : State} (m : Nat) (h : ∀ u, runLoop k s ≠ .running u) :
    runLoop (k + m) s = runLoop k s := by
  induction k generalizing s with
  | zero =>
    cases hr : s.runState with
    | halted => rw [runLoop_halted _ hr, runLoop_halted _ hr]
    | error => exact runLoop_of_error _ _ hr
    | ready => exact absurd (by simp only [runLoop, hr]) (h s)
    | running => exact absurd (by simp only [runLoop, hr]) (h s)
  | succ k ih =>
    have going (hr : s.runState = .ready ∨ s.runState = .running) : runLoop (k + 1 + m) s = runLoop (k + 1) s := by
      have hloop (j : Nat) : runLoop (j + 1) s =
          match step s with
          | .next t => runLoop j t
          | .fault f => .fault f
          | .refused r => .refused r := by
        rcases hr with hr | hr <;> simp only [runLoop, hr] <;> rfl
      rw [Nat.add_right_comm, hloop, hloop]
      cases hstep : step s with
      | next t =>
        rw [hloop, hstep] at h
        exact ih h
      | fault f => rfl
      | refused r => rfl
    cases hr : s.runState with
    | halted => rw [runLoop_halted _ hr, runLoop_halted _ hr]
    | error => exact runLoop_of_error _ _ hr
    | ready => exact going (.inl hr)
    | running => exact going (.inr hr)

/-- The same for a run of a session: only from Ready does it loop. -/
theorem runSession_add {k : Nat} {s : State} (m : Nat) (h : ∀ u, runSession k s ≠ .running u) :
    runSession (k + m) s = runSession k s := by
  cases hr : s.runState with
  | ready =>
    rw [runSession_ready _ hr, runSession_ready _ hr]
    exact runLoop_add m (by rwa [runSession_ready _ hr] at h)
  | _ => simp only [runSession, hr]

/-- Settles O47: neither result is a used-up budget. -/
theorem longerBudgetSameResult : Obligations.LongerBudgetSameResult := by
  refine fun s t f k m => ⟨fun h => ?halted, fun h => ?fault⟩
  case halted =>
    rw [runSession_add m (fun u hu => by cases h.symm.trans hu), h]
  case fault =>
    rw [runSession_add m (fun u hu => by cases h.symm.trans hu), h]

end Sys2Proof.Machine

/-!
PROOFS. A register that an instruction does not name has no part in it (10_state.md R114, R124 and section 5).
-/

namespace Sys2Proof.Machine

/-! ### Writes of different registers commute -/

theorem Regs.set_comm (r : Regs) {n n' : RegName} (v v' : Qword) (h : n ≠ n') :
    (r.set n v).set n' v' = (r.set n' v').set n v := by
  apply Regs.ext_get
  intro m
  simp only [Regs.get_set]
  by_cases hm : m = n
  · subst hm
    simp [h]
  · simp [hm]

theorem State.setReg_comm (s : State) {n n' : RegName} (v v' : Qword) (h : n ≠ n') :
    (s.setReg n v).setReg n' v' = (s.setReg n' v').setReg n v := by
  simp only [State.setReg, Regs.set_comm s.regs v v' h]

section
variable {s t : State} {n : RegName} {v : Qword}

theorem State.codeValue_setReg_ne {c : Byte} (h : c ≠ n.code) : (s.setReg n v).codeValue c = s.codeValue c := by
  unfold State.codeValue
  split
  case h_1 n' hn' =>
    rw [s.reg_setReg_ne v]
    rintro rfl
    exact h (RegName.code_of_ofCode hn').symm
  case h_2 => rfl

theorem State.setCode_setReg_comm {c : Byte} (x : Qword) (h : c ≠ n.code) :
    (s.setReg n v).setCode c x = (s.setCode c x).setReg n v := by
  unfold State.setCode
  split
  case h_1 n' hn' =>
    refine s.setReg_comm v x ?_
    rintro rfl
    exact h (RegName.code_of_ofCode hn').symm
  case h_2 => rfl

/-! ### Each operation on a state with another value in register `n` -/

theorem regGet_setReg_ne {c : Byte} (h : c ≠ n.code) : regGet (s.setReg n v) c = regGet s c := by
  simp only [regGet, State.codeOk_setReg, State.codeValue_setReg_ne h]

theorem srcValue_setReg_ne {src : Operand} (w : Width) (h : src ≠ .reg n.code) :
    srcValue (s.setReg n v) src w = srcValue s src w := by
  cases src with
  | imm => rfl
  | reg c => simp only [srcValue, regGet_setReg_ne (mt (congrArg Operand.reg) h)]

theorem addrValue_setReg_ne {src : Operand} (h : src ≠ .reg n.code) : addrValue (s.setReg n v) src = addrValue s src := by
  cases src with
  | imm => rfl
  | reg c => exact regGet_setReg_ne (mt (congrArg Operand.reg) h)

theorem regSet_setReg_ne {c : Byte} (x : Qword) (h : c ≠ n.code) :
    regSet (s.setReg n v) c x = (regSet s c x).map (fun u => u.setReg n v) := by
  simp only [regSet, State.codeOk_setReg, State.setCode_setReg_comm x h]
  split <;> rfl

theorem regMergeLow_setReg_ne {c : Byte} (w : Width) (x : Qword) (h : c ≠ n.code) :
    regMergeLow (s.setReg n v) c w x = (regMergeLow s c w x).map (fun u => u.setReg n v) := by
  simp only [regMergeLow, regGet_setReg_ne h]
  cases regGet s c with
  | error f => rfl
  | ok old => exact regSet_setReg_ne _ h

theorem memWrite_setReg (a : Qword) (w : Width) (x : Qword) :
    memWrite (s.setReg n v) a w x = (memWrite s a w x).map (fun u => u.setReg n v) := by
  unfold memWrite
  rw [show (s.setReg n v).inBounds a w = s.inBounds a w from rfl]
  split <;> rfl

/-- A fault leaves the register alone, so both ends of an execute phase differ in it only. -/
theorem finish_map_setReg {r : Except Fault State} (h : finish s r = .next t) :
    finish (s.setReg n v) (r.map (fun u => u.setReg n v)) = .next (t.setReg n v) := by
  cases r with
  | error f =>
    obtain rfl := Host.Outcome.next.inj h
    rfl
  | ok u =>
    obtain rfl := Host.Outcome.next.inj h
    rfl

theorem moveNarrow_setReg_ne {w : Width} {src : Operand} {dd : Byte} (hsrc : src ≠ .reg n.code) (hdd : dd ≠ n.code)
    (h : moveNarrow w src dd s = .next t) : moveNarrow w src dd (s.setReg n v) = .next (t.setReg n v) := by
  unfold moveNarrow at h ⊢
  rw [srcValue_setReg_ne w hsrc]
  cases hv : srcValue s src w with
  | error f =>
    rw [hv] at h
    exact finish_map_setReg h
  | ok x =>
    rw [hv] at h
    exact (congrArg _ (regMergeLow_setReg_ne w x hdd)).trans (finish_map_setReg h)

theorem moveFull_setReg_ne {src : Operand} {dd : Byte} (hsrc : src ≠ .reg n.code) (hdd : dd ≠ n.code)
    (h : moveFull src dd s = .next t) : moveFull src dd (s.setReg n v) = .next (t.setReg n v) := by
  unfold moveFull at h ⊢
  rw [srcValue_setReg_ne .qword hsrc]
  cases hv : srcValue s src .qword with
  | error f =>
    rw [hv] at h
    exact finish_map_setReg h
  | ok x =>
    rw [hv] at h
    exact (congrArg _ (regSet_setReg_ne x hdd)).trans (finish_map_setReg h)

theorem save_setReg_ne {w : Width} {src dst : Operand} (hsrc : src ≠ .reg n.code) (hdst : dst ≠ .reg n.code)
    (h : save w src dst s = .next t) : save w src dst (s.setReg n v) = .next (t.setReg n v) := by
  unfold save at h ⊢
  rw [srcValue_setReg_ne w hsrc, addrValue_setReg_ne hdst]
  cases hv : srcValue s src w with
  | error f =>
    rw [hv] at h
    exact finish_map_setReg h
  | ok x =>
    cases ha : addrValue s dst with
    | error f =>
      rw [hv, ha] at h
      exact finish_map_setReg h
    | ok a =>
      rw [hv, ha] at h
      exact (congrArg _ (memWrite_setReg a w x)).trans (finish_map_setReg h)

theorem load_setReg_ne {w : Width} {src : Operand} {dd : Byte} (hsrc : src ≠ .reg n.code) (hdd : dd ≠ n.code)
    (h : load w src dd s = .next t) : load w src dd (s.setReg n v) = .next (t.setReg n v) := by
  unfold load at h ⊢
  rw [addrValue_setReg_ne hsrc]
  cases ha : addrValue s src with
  | error f =>
    rw [ha] at h
    exact finish_map_setReg h
  | ok a =>
    have hread : memRead (s.setReg n v) a w = memRead s a w := rfl
    simp only [hread]
    cases hm : memRead s a w with
    | error f =>
      simp only [ha, hm] at h
      exact finish_map_setReg h
    | ok x =>
      simp only [ha, hm] at h
      exact (congrArg _ (regSet_setReg_ne x hdd)).trans (finish_map_setReg h)

end

/-! ### The families of the opcode catalogue -/

/-- Every instruction is one of the four shared operations on its two operands, or Inc or Dec (30_encoding.md R164). -/
theorem Instr.exec_family (i : Instr) :
    (∃ w src dd, i.operands = [src, .reg dd] ∧ ∀ s, exec i s = moveNarrow w src dd s) ∨
    (∃ src dd, i.operands = [src, .reg dd] ∧ ∀ s, exec i s = moveFull src dd s) ∨
    (∃ w src dst, i.operands = [src, dst] ∧ ∀ s, exec i s = save w src dst s) ∨
    (∃ w src dd, i.operands = [src, .reg dd] ∧ ∀ s, exec i s = load w src dd s) ∨
    i = .inc ∨ i = .dec := by
  cases i with
  | movBRToR | movWRToR | movDRToR | movBIToR | movWIToR | movDIToR => exact .inl ⟨_, _, _, rfl, fun _ => rfl⟩
  | movR | movI => exact .inr (.inl ⟨_, _, rfl, fun _ => rfl⟩)
  | saveBRToR | saveWRToR | saveDRToR | saveQRToR | saveBIToR | saveWIToR | saveDIToR | saveQIToR
  | saveBRToI | saveWRToI | saveDRToI | saveQRToI | saveBIToI | saveWIToI | saveDIToI | saveQIToI =>
    exact .inr (.inr (.inl ⟨_, _, _, rfl, fun _ => rfl⟩))
  | loadBRToR | loadWRToR | loadDRToR | loadQRToR | loadBIToR | loadWIToR | loadDIToR | loadQIToR =>
    exact .inr (.inr (.inr (.inl ⟨_, _, _, rfl, fun _ => rfl⟩)))
  | inc => exact .inr (.inr (.inr (.inr (.inl rfl))))
  | dec => exact .inr (.inr (.inr (.inr (.inr rfl))))

/-- Executing with another value in a register that no operand names differs in that register only. -/
theorem exec_setReg_unnamed {i : Instr} {s t : State} {n : RegName} (v : Qword)
    (hops : Operand.reg n.code ∉ i.operands) (hcount : n = .rcount → i ≠ .inc ∧ i ≠ .dec) (h : exec i s = .next t) :
    exec i (s.setReg n v) = .next (t.setReg n v) := by
  have pair {a b : Operand} (hi : i.operands = [a, b]) : a ≠ .reg n.code ∧ b ≠ .reg n.code := by
    rw [hi, List.mem_pair, not_or] at hops
    exact hops.imp Ne.symm Ne.symm
  rcases Instr.exec_family i with ⟨w, src, dd, hi, he⟩ | ⟨src, dd, hi, he⟩ | ⟨w, src, dst, hi, he⟩ | ⟨w, src, dd, hi, he⟩ |
    rfl | rfl
  · obtain ⟨hsrc, hdd⟩ := pair hi
    rw [he] at h ⊢
    exact moveNarrow_setReg_ne hsrc (mt (congrArg Operand.reg) hdd) h
  · obtain ⟨hsrc, hdd⟩ := pair hi
    rw [he] at h ⊢
    exact moveFull_setReg_ne hsrc (mt (congrArg Operand.reg) hdd) h
  · obtain ⟨hsrc, hdst⟩ := pair hi
    rw [he] at h ⊢
    exact save_setReg_ne hsrc hdst h
  · obtain ⟨hsrc, hdd⟩ := pair hi
    rw [he] at h ⊢
    exact load_setReg_ne hsrc (mt (congrArg Operand.reg) hdd) h
  · have hn : n ≠ .rcount := fun hn => (hcount hn).1 rfl
    obtain rfl := Host.Outcome.next.inj h
    rw [exec_inc, s.reg_setReg_ne v hn.symm, s.setReg_comm v _ hn]
  · have hn : n ≠ .rcount := fun hn => (hcount hn).2 rfl
    obtain rfl := Host.Outcome.next.inj h
    rw [exec_dec, s.reg_setReg_ne v hn.symm, s.setReg_comm v _ hn]

/-- Settles O33: the execute phase neither reads nor writes the register. -/
theorem unnamedRegistersDoNotMatter : Obligations.UnnamedRegistersDoNotMatter := by
  intro i s t n v hops hcount h
  refine ⟨exec_setReg_unnamed v hops hcount h, ?_⟩
  rcases exec_reg_cases h n with hreg | hd | ⟨hn, hi⟩
  · exact hreg
  · exact absurd (reg_mem_operands_of_destCode hd) hops
  · obtain ⟨hinc, hdec⟩ := hcount hn
    exact absurd hi (not_or.mpr ⟨hinc, hdec⟩)

end Sys2Proof.Machine

/-!
PROOFS. An instruction the host places as a word is the one the next step runs (log 22).
-/

namespace Sys2Proof

/-- A split longer than the list continues with the bytes of 0. -/
theorem splitLE_joinLE_append (bs : List Byte) (k : Nat) :
    splitLE (bs.length + k) (joinLE bs) = bs ++ splitLE k 0 := by
  have htake := take_splitLE (joinLE bs) (Nat.le_add_right bs.length k)
  have hdrop := drop_splitLE (joinLE bs) (Nat.le_add_right bs.length k)
  rw [Nat.add_sub_cancel_left, Nat.div_eq_of_lt (joinLE_lt bs)] at hdrop
  rw [← List.take_append_drop bs.length (splitLE (bs.length + k) (joinLE bs)), htake, hdrop, splitLE_joinLE]

/-- The word of an encoding gives the encoding back, followed by zeros up to the longest instruction. -/
theorem tableWordBytes_encode (i : Instr) :
    ∃ zeros, tableWordBytes (8 * Machine.instrLength i) (joinLE (encode i)) = encode i ++ zeros := by
  obtain ⟨k, hk⟩ := Nat.exists_eq_add_of_le (instrLength_le_maxInstrBytes i)
  refine ⟨splitLE k 0, ?_⟩
  have hlt : joinLE (encode i) < 2 ^ (8 * Machine.instrLength i) := by
    rw [Nat.pow_mul]
    exact joinLE_lt (encode i)
  rw [tableWordBytes, hk, Nat.mod_eq_of_lt hlt]
  exact splitLE_joinLE_append (encode i) k

theorem decodeTableWord_encode (i : Instr) :
    decodeTableWord (8 * Machine.instrLength i) (joinLE (encode i)) = some i := by
  obtain ⟨zeros, hword⟩ := tableWordBytes_encode i
  simp only [decodeTableWord, hword, decode_encode_append]

end Sys2Proof

namespace Sys2Proof.Machine

/-- The longest instruction fits below 2^64 wherever a word is placed. -/
theorem State.fetchBase_add_lt (s : State) : s.fetchBase + Config.maxInstrBytes < 2 ^ 64 := by
  unfold State.fetchBase
  split
  case isTrue h => exact h
  case isFalse => decide

theorem State.pc_placeInstr (s : State) (bytes : List Byte) :
    (s.placeInstr bytes).pc = BitVec.ofNat 64 s.fetchBase :=
  s.pc_setReg_pc _

/-- The placed bytes begin with the instruction, so it stands at the program counter. -/
theorem State.instrAt_placeInstr (s : State) (i : Instr) (zeros : List Byte) :
    (s.placeInstr (encode i ++ zeros)).InstrAt i := by
  have hmax := instrLength_le_maxInstrBytes i
  have hpc : (s.placeInstr (encode i ++ zeros)).pc.toNat = s.fetchBase := by
    rw [State.pc_placeInstr, BitVec.toNat_ofNat]
    exact Nat.mod_eq_of_lt (Nat.lt_of_le_of_lt (Nat.le_add_right _ _) s.fetchBase_add_lt)
  refine ⟨?fits, ?span⟩
  case fits =>
    rw [hpc]
    exact (Nat.add_le_add_left hmax _).trans (Nat.le_max_right _ _)
  case span =>
    have hspan := Memory.bytesFrom_setBytes s.mem s.fetchBase (encode i ++ zeros)
    rw [List.length_append, Memory.bytesFrom_add] at hspan
    rw [hpc]
    exact (List.append_inj hspan (Memory.length_bytesFrom _ _ _)).1

/-- Settles O57: the word splits into the encoding and zeros, and its bytes are placed at the program counter of a running
session. -/
theorem placedInstructionRunsNext : Obligations.PlacedInstructionRunsNext := by
  intro s i p
  obtain ⟨zeros, hword⟩ := tableWordBytes_encode i
  have hp : p = s.placeInstr (encode i ++ zeros) := congrArg s.placeInstr hword
  refine ⟨decodeTableWord_encode i, fun n hn => s.reg_setReg_ne _ hn, fun hlt => ?pc, step_of_instrAt rfl ?instrAt⟩
  case pc =>
    have hbase : s.fetchBase = s.pc.toNat := if_pos hlt
    rw [hp, State.pc_placeInstr, hbase, BitVec.ofNat_toNat, BitVec.setWidth_eq]
  case instrAt =>
    rw [hp]
    exact s.instrAt_placeInstr i zeros

end Sys2Proof.Machine
